-- ==== Sys2Proof/Word.lean ====
section
/-! DEFINITION. The machine's word types (00_scope.md R6: every quantity is unsigned). -/

namespace Sys2Proof

/-- A byte: a memory cell, a general register, a timer, the immediate `kk`. -/
abbrev Byte := BitVec 8

/-- 16 bits: an opcode, the index register, the program counter, a stack entry. -/
abbrev Word := BitVec 16

/-- The 12-bit address immediate `nnn`. -/
abbrev Addr12 := BitVec 12

/-- The 4-bit immediate `n`, and a 4-bit second-level opcode. -/
abbrev Nibble := BitVec 4

/-- A 4-bit register selector, `x` or `y` (10_state.md R20). -/
abbrev Reg := BitVec 4

end Sys2Proof
end

