-- ==== Sys2Proof/Config.lean ====
section
/-! DEFINITION. The implementation parameters of 00_scope.md R5, and the free value of Cxkk. -/

namespace Sys2Proof

/-- What Dxyn does with a set sprite bit outside the framebuffer (44_display.md R153). -/
inductive OobPolicy where
  | clip
  | wrap
  | fault
  deriving DecidableEq, Repr

/-- The parameters of R5. Every operation of the machine that depends on one takes a `Config`;
the fixed machine takes `Config.hw` (Machine/Hardware.lean). -/
structure Config where
  /-- `MEM_SIZE`: valid addresses are 0 .. MEM_SIZE - 1. -/
  memSize : Nat
  /-- `TEXT_OFFSET`: where `Load` copies the image, and the pc after a load. -/
  textOffset : Nat
  /-- `FB_W`: framebuffer columns. -/
  fbWidth : Nat
  /-- `FB_H`: framebuffer rows. -/
  fbHeight : Nat
  /-- `GLYPHS`: the bytes construction puts at addresses 0 .. 79. -/
  glyphs : List Byte
  /-- `STACK_DEPTH`: the most saved return addresses. -/
  stackDepth : Nat
  /-- `OOB_POLICY`. -/
  oobPolicy : OobPolicy
  deriving DecidableEq, Repr

/-- The random byte of the `k`-th execution of Cxkk (42_alu.md R133, D29): a free value, under no
law. It has no body, so a claim about it holds for every byte (log 2, DESIGN CHOICE, safe). -/
opaque Config.rand8 : Nat → Byte

end Sys2Proof
end

