-- ==== Sys2Proof/Syntax.lean ====
section
/-! DEFINITION. The instructions: one constructor per row of spec/opcode_table.json (30_encoding.md R75).
The field types are exactly the fields' widths (R71, R73), so every term is an instruction the
hardware has. -/

namespace Sys2Proof

/-- The 34 instructions of R75, in the table's order. -/
inductive Instr where
  /-- `00E0`: clear the framebuffer (R150). -/
  | cls
  /-- `00EE`: return (R100). -/
  | ret
  /-- `1nnn`: jump (R101). -/
  | jp (nnn : Addr12)
  /-- `2nnn`: call (R102). -/
  | call (nnn : Addr12)
  /-- `3xkk`: skip if V[x] = kk (R103). -/
  | seImm (x : Reg) (kk : Byte)
  /-- `4xkk`: skip if V[x] differs from kk (R104). -/
  | sneImm (x : Reg) (kk : Byte)
  /-- `5xy0`: skip if V[x] = V[y] (R105). -/
  | seReg (x : Reg) (y : Reg)
  /-- `6xkk`: load immediate (R122). -/
  | ldImm (x : Reg) (kk : Byte)
  /-- `7xkk`: add immediate, no flag (R123). -/
  | addImm (x : Reg) (kk : Byte)
  /-- `8xy0`: copy register (R124). -/
  | ldReg (x : Reg) (y : Reg)
  /-- `8xy1`: or (R125). -/
  | orReg (x : Reg) (y : Reg)
  /-- `8xy2`: and (R126). -/
  | andReg (x : Reg) (y : Reg)
  /-- `8xy3`: exclusive or (R127). -/
  | xorReg (x : Reg) (y : Reg)
  /-- `8xy4`: add with carry flag (R128). -/
  | addReg (x : Reg) (y : Reg)
  /-- `8xy5`: V[x] - V[y] with no-borrow flag (R129). -/
  | subReg (x : Reg) (y : Reg)
  /-- `8xy6`: shift right by one; y is decoded and ignored (R130). -/
  | shr (x : Reg) (y : Reg)
  /-- `8xy7`: V[y] - V[x] with no-borrow flag (R131). -/
  | subn (x : Reg) (y : Reg)
  /-- `8xyE`: shift left by one; y is decoded and ignored (R132). -/
  | shl (x : Reg) (y : Reg)
  /-- `9xy0`: skip if V[x] differs from V[y] (R106). -/
  | sneReg (x : Reg) (y : Reg)
  /-- `Annn`: load the index register (R141). -/
  | ldI (nnn : Addr12)
  /-- `Bnnn`: jump to nnn + V[0] (R107). -/
  | jpV0 (nnn : Addr12)
  /-- `Cxkk`: random byte and kk (R133). -/
  | rnd (x : Reg) (kk : Byte)
  /-- `Dxyn`: draw an n-row sprite (R152). -/
  | drw (x : Reg) (y : Reg) (n : Nibble)
  /-- `Ex9E`: skip if the key is pressed (R161). -/
  | skp (x : Reg)
  /-- `ExA1`: skip if the key is not pressed (R162). -/
  | sknp (x : Reg)
  /-- `Fx07`: read the delay timer (R164). -/
  | ldVxDt (x : Reg)
  /-- `Fx0A`: wait for a key (R163). -/
  | ldVxK (x : Reg)
  /-- `Fx15`: write the delay timer (R165). -/
  | ldDtVx (x : Reg)
  /-- `Fx18`: write the sound timer (R166). -/
  | ldStVx (x : Reg)
  /-- `Fx1E`: add to the index register, flag on overflow (R142). -/
  | addI (x : Reg)
  /-- `Fx29`: index of the glyph (R143). -/
  | ldF (x : Reg)
  /-- `Fx33`: store three decimal digits (R144). -/
  | ldB (x : Reg)
  /-- `Fx55`: store V[0..x] (R145). -/
  | storeRegs (x : Reg)
  /-- `Fx65`: load V[0..x] (R146). -/
  | loadRegs (x : Reg)
  deriving DecidableEq, Repr

end Sys2Proof
end

