-- ==== Sys2Proof/WellFormed.lean ====
section
/-! DEFINITION. Well-formedness: of a configuration (00_scope.md R5), and of an assembler line's
operand numbers (30_encoding.md R73, R79). A term of `Instr` is well-formed by its field types
(log 25): the ill-formed terms are the raw numbers an assembler is given. -/

namespace Sys2Proof

/-- The six shapes of R72. -/
inductive Format where
  | exact | address | regImm | regReg | regRegNibble | reg
  deriving DecidableEq, Repr

/-- The rows of the opcode map (R75), one name per row, as the assembler's mnemonics select them. -/
inductive Row where
  | cls | ret | jp | call | seImm | sneImm | seReg | ldImm | addImm
  | ldReg | orReg | andReg | xorReg | addReg | subReg | shr | subn | shl
  | sneReg | ldI | jpV0 | rnd | drw | skp | sknp | ldVxDt | ldVxK
  | ldDtVx | ldStVx | addI | ldF | ldB | storeRegs | loadRegs
  deriving DecidableEq, Repr

/-- Every row, in the table's order. -/
def Row.all : List Row :=
  [.cls, .ret, .jp, .call, .seImm, .sneImm, .seReg, .ldImm, .addImm,
   .ldReg, .orReg, .andReg, .xorReg, .addReg, .subReg, .shr, .subn, .shl,
   .sneReg, .ldI, .jpV0, .rnd, .drw, .skp, .sknp, .ldVxDt, .ldVxK,
   .ldDtVx, .ldStVx, .addI, .ldF, .ldB, .storeRegs, .loadRegs]

/-- The format column of R75. -/
def Row.format : Row → Format
  | .cls | .ret => .exact
  | .jp | .call => .address
  | .seImm | .sneImm => .regImm
  | .seReg => .regReg
  | .ldImm | .addImm => .regImm
  | .ldReg | .orReg | .andReg | .xorReg | .addReg | .subReg => .regReg
  | .shr | .subn | .shl | .sneReg => .regReg
  | .ldI | .jpV0 => .address
  | .rnd => .regImm
  | .drw => .regRegNibble
  | .skp | .sknp | .ldVxDt | .ldVxK | .ldDtVx | .ldStVx => .reg
  | .addI | .ldF | .ldB | .storeRegs | .loadRegs => .reg

/-- The operand numbers of an assembler line, of any size; a form reads those it has (R79). -/
structure RawOperands where
  x : Nat := 0
  y : Nat := 0
  n : Nat := 0
  kk : Nat := 0
  nnn : Nat := 0
  deriving DecidableEq, Repr

/-- R79: a number must fit its field; the assembler rejects one that does not, it never truncates. -/
def RawOperands.fit (o : RawOperands) : Format → Bool
  | .exact => true
  | .address => decide (o.nnn < 4096)
  | .regImm => decide (o.x < 16) && decide (o.kk < 256)
  | .regReg => decide (o.x < 16) && decide (o.y < 16)
  | .regRegNibble => decide (o.x < 16) && decide (o.y < 16) && decide (o.n < 16)
  | .reg => decide (o.x < 16)

/-- The constraint column of R5. -/
def Config.wellFormed (c : Config) : Bool :=
  decide (c.textOffset + 2 ≤ c.memSize) && decide (c.memSize < 4096) &&
  decide (c.textOffset % 2 = 0) && decide (80 ≤ c.textOffset) &&
  decide (8 ≤ c.fbWidth) && decide (15 ≤ c.fbHeight) &&
  decide (c.glyphs.length = 80) && decide (1 ≤ c.stackDepth)

end Sys2Proof
end

