-- ==== Sys2Proof/Decode.lean ====
section
/-! DEFINITION. Fields, decoding and encoding (30_encoding.md R70 to R79). -/

namespace Sys2Proof

/-- The opcode of two fetched bytes, the first the high-order byte (20_memory.md R54). -/
def wordOfBytes (b0 b1 : Byte) : Word := BitVec.ofNat 16 (b0.toNat * 256 + b1.toNat)

/-- The bytes of an opcode as memory holds them: high byte, then low byte (R70, R79). -/
def bytesOfWord (w : Word) : List Byte := [w.extractLsb' 8 8, w.extractLsb' 0 8]

/-- R71: op[15:12]. -/
def majorField (op : Word) : Nibble := op.extractLsb' 12 4
/-- R71: op[11:8]. -/
def xField (op : Word) : Reg := op.extractLsb' 8 4
/-- R71: op[7:4]. -/
def yField (op : Word) : Reg := op.extractLsb' 4 4
/-- R71: op[3:0]. -/
def nField (op : Word) : Nibble := op.extractLsb' 0 4
/-- R71: op[7:0]. -/
def kkField (op : Word) : Byte := op.extractLsb' 0 8
/-- R71: op[11:0]. -/
def nnnField (op : Word) : Addr12 := op.extractLsb' 0 12

/-- The mask column of R75: which bits of the word are the row's fixed bits. -/
def Row.mask (r : Row) : Word :=
  match r.format with
  | .exact => 0xFFFF
  | .address | .regImm | .regRegNibble => 0xF000
  | .regReg => 0xF00F
  | .reg => 0xF0FF

/-- The match column of R75. -/
def Row.bits : Row → Word
  | .cls => 0x00E0 | .ret => 0x00EE | .jp => 0x1000
  | .call => 0x2000 | .seImm => 0x3000 | .sneImm => 0x4000
  | .seReg => 0x5000 | .ldImm => 0x6000 | .addImm => 0x7000
  | .ldReg => 0x8000 | .orReg => 0x8001 | .andReg => 0x8002
  | .xorReg => 0x8003 | .addReg => 0x8004 | .subReg => 0x8005
  | .shr => 0x8006 | .subn => 0x8007 | .shl => 0x800E
  | .sneReg => 0x9000 | .ldI => 0xA000 | .jpV0 => 0xB000
  | .rnd => 0xC000 | .drw => 0xD000 | .skp => 0xE09E
  | .sknp => 0xE0A1 | .ldVxDt => 0xF007 | .ldVxK => 0xF00A
  | .ldDtVx => 0xF015 | .ldStVx => 0xF018 | .addI => 0xF01E
  | .ldF => 0xF029 | .ldB => 0xF033 | .storeRegs => 0xF055
  | .loadRegs => 0xF065

/-- Group 0 of R74: the whole low 12 bits decide. -/
def decodeGroup0 (nnn : Addr12) : Option Row :=
  if nnn = 0x0E0#12 then some .cls
  else if nnn = 0x0EE#12 then some .ret
  else none

/-- Group 8 of R74: `n` decides. -/
def decodeGroup8 (n : Nibble) : Option Row :=
  if n = 0x0#4 then some .ldReg
  else if n = 0x1#4 then some .orReg
  else if n = 0x2#4 then some .andReg
  else if n = 0x3#4 then some .xorReg
  else if n = 0x4#4 then some .addReg
  else if n = 0x5#4 then some .subReg
  else if n = 0x6#4 then some .shr
  else if n = 0x7#4 then some .subn
  else if n = 0xE#4 then some .shl
  else none

/-- Group E of R74: `kk` decides. -/
def decodeGroupE (kk : Byte) : Option Row :=
  if kk = 0x9E#8 then some .skp
  else if kk = 0xA1#8 then some .sknp
  else none

/-- Group F of R74: `kk` decides. -/
def decodeGroupF (kk : Byte) : Option Row :=
  if kk = 0x07#8 then some .ldVxDt
  else if kk = 0x0A#8 then some .ldVxK
  else if kk = 0x15#8 then some .ldDtVx
  else if kk = 0x18#8 then some .ldStVx
  else if kk = 0x1E#8 then some .addI
  else if kk = 0x29#8 then some .ldF
  else if kk = 0x33#8 then some .ldB
  else if kk = 0x55#8 then some .storeRegs
  else if kk = 0x65#8 then some .loadRegs
  else none

/-- Two-level dispatch (R74), each pattern read exactly (UNVERIFIED, the spec's decision D15;
log 27, safe): the row of a word, or none where the word is unknown (R76). -/
def decodeRow (op : Word) : Option Row :=
  let m := majorField op
  if m = 0x0#4 then decodeGroup0 (nnnField op)
  else if m = 0x1#4 then some .jp
  else if m = 0x2#4 then some .call
  else if m = 0x3#4 then some .seImm
  else if m = 0x4#4 then some .sneImm
  else if m = 0x5#4 then (if nField op = 0x0#4 then some .seReg else none)
  else if m = 0x6#4 then some .ldImm
  else if m = 0x7#4 then some .addImm
  else if m = 0x8#4 then decodeGroup8 (nField op)
  else if m = 0x9#4 then (if nField op = 0x0#4 then some .sneReg else none)
  else if m = 0xA#4 then some .ldI
  else if m = 0xB#4 then some .jpV0
  else if m = 0xC#4 then some .rnd
  else if m = 0xD#4 then some .drw
  else if m = 0xE#4 then decodeGroupE (kkField op)
  else decodeGroupF (kkField op)

/-- The instruction of a row, given all the fields: it uses those its pattern names (R71). -/
def Row.instr (r : Row) (x y : Reg) (n : Nibble) (kk : Byte) (nnn : Addr12) : Instr :=
  match r with
  | .cls => .cls
  | .ret => .ret
  | .jp => .jp nnn
  | .call => .call nnn
  | .seImm => .seImm x kk
  | .sneImm => .sneImm x kk
  | .seReg => .seReg x y
  | .ldImm => .ldImm x kk
  | .addImm => .addImm x kk
  | .ldReg => .ldReg x y
  | .orReg => .orReg x y
  | .andReg => .andReg x y
  | .xorReg => .xorReg x y
  | .addReg => .addReg x y
  | .subReg => .subReg x y
  | .shr => .shr x y
  | .subn => .subn x y
  | .shl => .shl x y
  | .sneReg => .sneReg x y
  | .ldI => .ldI nnn
  | .jpV0 => .jpV0 nnn
  | .rnd => .rnd x kk
  | .drw => .drw x y n
  | .skp => .skp x
  | .sknp => .sknp x
  | .ldVxDt => .ldVxDt x
  | .ldVxK => .ldVxK x
  | .ldDtVx => .ldDtVx x
  | .ldStVx => .ldStVx x
  | .addI => .addI x
  | .ldF => .ldF x
  | .ldB => .ldB x
  | .storeRegs => .storeRegs x
  | .loadRegs => .loadRegs x

/-- R74, R78: from a 16-bit opcode to its instruction, or none for an unknown word. -/
def decode (op : Word) : Option Instr :=
  (decodeRow op).map fun r =>
    r.instr (xField op) (yField op) (nField op) (kkField op) (nnnField op)

/-- Why a byte sequence gives no instruction. -/
inductive DecodeError where
  /-- R76: the word matches no row. -/
  | unknown (op : Word)
  /-- Fewer than two bytes are left. -/
  | truncated
  deriving DecidableEq, Repr

/-- Decoding of a byte sequence: the first instruction and the bytes after it, or the reason
there is none. -/
def decodeBytes : List Byte → Except DecodeError (Instr × List Byte)
  | b0 :: b1 :: rest =>
    match decode (wordOfBytes b0 b1) with
    | some i => .ok (i, rest)
    | none => .error (.unknown (wordOfBytes b0 b1))
  | _ => .error .truncated

/-- Format A: major and nnn (R72, R79). -/
def wordA (m : Nibble) (nnn : Addr12) : Word :=
  m.setWidth 16 <<< 12 ||| nnn.setWidth 16

/-- Formats RI and R: major, x and kk (R72, R79). -/
def wordRI (m : Nibble) (x : Reg) (kk : Byte) : Word :=
  m.setWidth 16 <<< 12 ||| x.setWidth 16 <<< 8 ||| kk.setWidth 16

/-- Formats RR and RRN: major, x, y and n (R72, R79). -/
def wordRRN (m : Nibble) (x y : Reg) (n : Nibble) : Word :=
  m.setWidth 16 <<< 12 ||| x.setWidth 16 <<< 8 ||| y.setWidth 16 <<< 4 ||| n.setWidth 16

/-- The word of an instruction (R75, R79). -/
def encode : Instr → Word
  | .cls => 0x00E0
  | .ret => 0x00EE
  | .jp nnn => wordA 0x1 nnn
  | .call nnn => wordA 0x2 nnn
  | .seImm x kk => wordRI 0x3 x kk
  | .sneImm x kk => wordRI 0x4 x kk
  | .seReg x y => wordRRN 0x5 x y 0x0
  | .ldImm x kk => wordRI 0x6 x kk
  | .addImm x kk => wordRI 0x7 x kk
  | .ldReg x y => wordRRN 0x8 x y 0x0
  | .orReg x y => wordRRN 0x8 x y 0x1
  | .andReg x y => wordRRN 0x8 x y 0x2
  | .xorReg x y => wordRRN 0x8 x y 0x3
  | .addReg x y => wordRRN 0x8 x y 0x4
  | .subReg x y => wordRRN 0x8 x y 0x5
  | .shr x y => wordRRN 0x8 x y 0x6
  | .subn x y => wordRRN 0x8 x y 0x7
  | .shl x y => wordRRN 0x8 x y 0xE
  | .sneReg x y => wordRRN 0x9 x y 0x0
  | .ldI nnn => wordA 0xA nnn
  | .jpV0 nnn => wordA 0xB nnn
  | .rnd x kk => wordRI 0xC x kk
  | .drw x y n => wordRRN 0xD x y n
  | .skp x => wordRI 0xE x 0x9E
  | .sknp x => wordRI 0xE x 0xA1
  | .ldVxDt x => wordRI 0xF x 0x07
  | .ldVxK x => wordRI 0xF x 0x0A
  | .ldDtVx x => wordRI 0xF x 0x15
  | .ldStVx x => wordRI 0xF x 0x18
  | .addI x => wordRI 0xF x 0x1E
  | .ldF x => wordRI 0xF x 0x29
  | .ldB x => wordRI 0xF x 0x33
  | .storeRegs x => wordRI 0xF x 0x55
  | .loadRegs x => wordRI 0xF x 0x65

/-- The row an instruction belongs to. -/
def Instr.row : Instr → Row
  | .cls => .cls | .ret => .ret | .jp _ => .jp
  | .call _ => .call | .seImm _ _ => .seImm | .sneImm _ _ => .sneImm
  | .seReg _ _ => .seReg | .ldImm _ _ => .ldImm | .addImm _ _ => .addImm
  | .ldReg _ _ => .ldReg | .orReg _ _ => .orReg | .andReg _ _ => .andReg
  | .xorReg _ _ => .xorReg | .addReg _ _ => .addReg | .subReg _ _ => .subReg
  | .shr _ _ => .shr | .subn _ _ => .subn | .shl _ _ => .shl
  | .sneReg _ _ => .sneReg | .ldI _ => .ldI | .jpV0 _ => .jpV0
  | .rnd _ _ => .rnd | .drw _ _ _ => .drw | .skp _ => .skp
  | .sknp _ => .sknp | .ldVxDt _ => .ldVxDt | .ldVxK _ => .ldVxK
  | .ldDtVx _ => .ldDtVx | .ldStVx _ => .ldStVx | .addI _ => .addI
  | .ldF _ => .ldF | .ldB _ => .ldB | .storeRegs _ => .storeRegs
  | .loadRegs _ => .loadRegs

/-- R79: the assembler's answer to a mnemonic's row and operand numbers; none where a number
does not fit its field. -/
def assemble (r : Row) (o : RawOperands) : Option Instr :=
  if o.fit r.format then
    some (r.instr (BitVec.ofNat 4 o.x) (BitVec.ofNat 4 o.y) (BitVec.ofNat 4 o.n)
      (BitVec.ofNat 8 o.kk) (BitVec.ofNat 12 o.nnn))
  else none

/-- The bytes memory holds for the opcode table's word `w`, of which the table gives `nbits` bits:
one word, high byte first; the bits above `nbits` are 0. -/
def tableBytes (nbits w : Nat) : List Byte := bytesOfWord (BitVec.ofNat 16 (w % 2 ^ nbits))

/-- The instruction the decoder reads from the opcode table's word `w`. -/
def decodeTableWord (nbits w : Nat) : Option Instr :=
  match decodeBytes (tableBytes nbits w) with
  | .ok (i, _) => some i
  | .error _ => none

end Sys2Proof
end

