-- ==== Sys2Proof/Machine/Hardware.lean ====
section
/-! DEFINITION. The parameter values of this hardware (00_scope.md R5, default column) and the
constants the source fixes. -/

namespace Sys2Proof

/-- Glyphs 0 to 7 of 20_memory.md R52 (log 1, PRESUMED: unsafe where a claim leans on a byte). -/
def Config.glyphsLow : List Byte :=
  [0xF0, 0x90, 0x90, 0x90, 0xF0] ++ [0x20, 0x60, 0x20, 0x20, 0x70] ++
  [0xF0, 0x10, 0xF0, 0x80, 0xF0] ++ [0xF0, 0x10, 0xF0, 0x10, 0xF0] ++
  [0x90, 0x90, 0xF0, 0x10, 0x10] ++ [0xF0, 0x80, 0xF0, 0x10, 0xF0] ++
  [0xF0, 0x80, 0xF0, 0x90, 0xF0] ++ [0xF0, 0x10, 0x20, 0x40, 0x40]

/-- Glyphs 8 to F of 20_memory.md R52 (log 1, PRESUMED: unsafe where a claim leans on a byte). -/
def Config.glyphsHigh : List Byte :=
  [0xF0, 0x90, 0xF0, 0x90, 0xF0] ++ [0xF0, 0x90, 0xF0, 0x10, 0xF0] ++
  [0xF0, 0x90, 0xF0, 0x90, 0x90] ++ [0xE0, 0x90, 0xE0, 0x90, 0xE0] ++
  [0xF0, 0x80, 0x80, 0x80, 0xF0] ++ [0xE0, 0x90, 0x90, 0x90, 0xE0] ++
  [0xF0, 0x80, 0xF0, 0x80, 0xF0] ++ [0xF0, 0x80, 0xF0, 0x80, 0x80]

/-- This hardware: every parameter at the default column of R5
(log 1, PRESUMED: unsafe if the real constants differ). -/
def Config.hw : Config where
  memSize := 4095
  textOffset := 0x200
  fbWidth := 64
  fbHeight := 32
  glyphs := Config.glyphsLow ++ Config.glyphsHigh
  stackDepth := 16
  oobPolicy := .clip

/-- `ADDR_MASK` of R5: the mask on every value written to the index register, and the limit
of Fx1E's flag (UNVERIFIED, the spec's decision D3; log 17, unsafe). -/
def Config.addrMask : Word := 0x0FFF

/-- `GLYPH_STRIDE` of R5: bytes per glyph; `GLYPH_BASE` is address 0. -/
def Config.glyphStride : Nat := 5

end Sys2Proof
end

