-- ==== Sys2Proof/Machine/State.lean ====
section
/-! DEFINITION. The machine's state (10_state.md R35), its state after construction (R36), and the
reasons a step or a load can fail (60_exceptions.md R170). -/

namespace Sys2Proof.Machine

/-- The fatal faults a `Step` reports, in the order of the codes of R170, each with the info of that
table. A fault changes nothing (40_cycle.md R96): the state before the step is the state after it. -/
inductive Fault where
  /-- Code 1 (R172). Raised by the fetch when `pc + 1 >= MEM_SIZE`. Safe: the spec's own fault. -/
  | fetchOutOfBounds (pc : Word)
  /-- Code 2 (R171). Raised by the cycle when the fetched word matches no instruction. Safe: the
  spec's own fault. -/
  | unknownOpcode (op : Word)
  /-- Code 3 (R174). Raised by 2nnn on a full stack. Safe: the spec's own fault; a machine with an
  unbounded stack would go on (D7). -/
  | stackOverflow (pc : Word)
  /-- Code 4 (R174). Raised by 00EE on an empty stack. Safe: the spec's own fault (D8). -/
  | stackUnderflow (pc : Word)
  /-- Code 5 (R173). Raised by Dxyn, Fx33, Fx55, Fx65 touching an address that does not exist;
  reports the lowest such address. Safe: the spec's own fault (D13). -/
  | memOutOfBounds (address : Nat)
  /-- Code 6 (R176). Raised by Dxyn with a set bit out of frame, only under `OOB_POLICY = fault`
  (R153). Safe: the spec's own fault. -/
  | spriteOutOfFrame (pc : Word)
  deriving DecidableEq, Repr

/-- Why the model gives an instruction no meaning. -/
inductive Refusal where
  /-- Raised by an arm of `exec` whose instruction has no meaning yet; no arm is left that does.
  Safe: it stops where the hardware goes on. -/
  | notModelled (mnemonic : String)
  deriving DecidableEq, Repr

/-- Why a `Load` fails (60_exceptions.md R175). -/
inductive LoadError where
  /-- Code 8. "When the source cannot be read": the file collaborator's, never raised by the core,
  whose `Load` takes bytes; here so that the error set is the source's. -/
  | unreadable
  /-- Code 7. The image is longer than `MEM_SIZE - TEXT_OFFSET`; nothing changes. -/
  | tooLarge (length : Nat)
  deriving DecidableEq, Repr

/-- Code 9 (60_exceptions.md R176): an invalid external call; it changes nothing and is not fatal. -/
inductive CallerError where
  /-- `FrameQuery` or `KeyUpdate` with an index out of range. -/
  | indexOutOfRange
  deriving DecidableEq, Repr

/-- Memory: the bytes that differ from their construction contents, by rising address (log 7). -/
abbrev Memory := List Host.Cell

/-- The framebuffer: the linear indices `py * FB_W + px` of the cells that are 1, rising (log 6). -/
abbrev Display := List Nat

/-- The whole state (R35), and two fields of the model's own at the end. -/
structure State where
  /-- `V[0]` .. `V[15]` (R20); `V[15]` is `VF`, the flag register (R21). -/
  v : Vector Byte 16
  /-- The index register `I` (R22). -/
  index : Word
  /-- The program counter (R23). -/
  pc : Word
  /-- The call stack (R24), the last pushed entry first (log 8); `sp` is its length. -/
  stack : List Word
  /-- The delay timer `DT` (R25). -/
  dt : Byte
  /-- The sound timer `ST` (R26). -/
  st : Byte
  /-- The address space (R27). -/
  mem : Memory
  /-- The framebuffer (R28). -/
  fb : Display
  /-- The needs-redraw flag (R29). -/
  redraw : Bool
  /-- The key states, true where pressed (R30); written by the host only. -/
  keys : Vector Bool 16
  /-- The awaiting-key state (R31): the last `Step` fetched Fx0A and found no key pressed. -/
  waiting : Bool
  /-- The model's own (log 2): how many random bytes Cxkk has drawn; `Config.rand8` of it is the
  next one. -/
  draws : Nat
  /-- The model's own (log 3): how many `beep` events (40_cycle.md R94) have been emitted. -/
  beeps : Nat
  deriving DecidableEq, Repr

/-- The machine after construction, its only reset (R36, 70_reset_and_hazards.md R200). Memory lists
nothing: every byte reads its construction contents. `draws` and `beeps` start at 0
(DESIGN CHOICE, logs 2 and 3, safe). -/
def State.reset : State where
  v := Vector.replicate 16 0
  index := 0
  pc := 0
  stack := []
  dt := 0
  st := 0
  mem := []
  fb := []
  redraw := false
  keys := Vector.replicate 16 false
  waiting := false
  draws := 0
  beeps := 0

end Sys2Proof.Machine
end

