-- ==== Sys2Proof/Machine/Ops.lean ====
section
/-! DEFINITION. The named operations over the state: registers, memory, stack, framebuffer, keys,
the timer tick, the end of a cycle, the checks that fault, and the cycle itself
(00_scope.md R7, 20_memory.md, 40_cycle.md). This machine takes no exception inside itself
(60_exceptions.md R177, R179): a fault is the outcome `Host.Outcome.fault`, and there is no return
from one (R180). -/

namespace Sys2Proof.Machine

/-- What a step answers. -/
abbrev Result := Host.Outcome State Fault Refusal

/-! Registers. -/

/-- `V[r]` (R7, R20). -/
def State.reg (s : State) (r : Reg) : Byte := s.v[r.toNat]'r.isLt

/-- `V[r] <- b`. -/
def State.setReg (s : State) (r : Reg) (b : Byte) : State :=
  { s with v := s.v.set r.toNat b r.isLt }

/-- `V[0] .. V[x]` each replaced by its entry of `f` (Fx65). -/
def State.setRegsUpTo (s : State) (x : Reg) (f : Nat → Byte) : State :=
  { s with v := Vector.ofFn fun i => if i.val ≤ x.toNat then f i.val else s.v[i] }

/-- `I <- w`: a write stores `w & 0x0FFF` (R22; UNVERIFIED, the spec's D3 and D19; log 17, unsafe). -/
def State.setIndex (s : State) (w : Word) : State := { s with index := w &&& Config.addrMask }

/-- `pc <- w`. -/
def State.setPc (s : State) (w : Word) : State := { s with pc := w }

/-- The stack replaced. -/
def State.setStack (s : State) (l : List Word) : State := { s with stack := l }

/-- `DT <- b`. -/
def State.setDt (s : State) (b : Byte) : State := { s with dt := b }

/-- `ST <- b`. -/
def State.setSt (s : State) (b : Byte) : State := { s with st := b }

/-- Memory replaced. -/
def State.setMem (s : State) (m : Memory) : State := { s with mem := m }

/-- The framebuffer replaced. -/
def State.setFb (s : State) (d : Display) : State := { s with fb := d }

/-- `redraw <- b`. -/
def State.setRedraw (s : State) (b : Bool) : State := { s with redraw := b }

/-- `key[k] <- b`. -/
def State.setKey (s : State) (k : Nibble) (b : Bool) : State :=
  { s with keys := s.keys.set k.toNat b k.isLt }

/-- `waiting <- b`. -/
def State.setWaiting (s : State) (b : Bool) : State := { s with waiting := b }

/-- One more random byte drawn. -/
def State.countDraw (s : State) : State := { s with draws := s.draws + 1 }

/-- `n` more `beep` events emitted. -/
def State.emitBeeps (s : State) (n : Nat) : State := { s with beeps := s.beeps + n }

/-! Memory. -/

/-- What an address that is not listed reads as: its construction contents, GLYPHS at 0 .. 79 and 0
above (R36, 20_memory.md R51, R52). -/
def Memory.unlisted (c : Config) (a : Nat) : Byte := c.glyphs.getD a 0

/-- The byte at address `a`. -/
def Memory.read (c : Config) : Memory → Nat → Byte
  | [], a => Memory.unlisted c a
  | e :: m, a => if e.1 = a then e.2 else Memory.read c m a

/-- The cells without address `a`. -/
def Memory.erase (a : Nat) (m : Memory) : Memory := m.filter fun e => e.1 != a

/-- A cell put in its place by rising address. -/
def Memory.insert (a : Nat) (b : Byte) : Memory → Memory
  | [] => [(a, b)]
  | e :: m => if a < e.1 then (a, b) :: e :: m else e :: Memory.insert a b m

/-- The byte at `a` becomes `b`; a byte equal to its construction contents is not listed. -/
def Memory.write (c : Config) (a : Nat) (b : Byte) (m : Memory) : Memory :=
  if b = Memory.unlisted c a then m.erase a else (m.erase a).insert a b

/-- Bytes written at consecutive addresses from `a`. -/
def Memory.writeBytes (c : Config) : Nat → List Byte → Memory → Memory
  | _, [], m => m
  | a, b :: bs, m => Memory.writeBytes c (a + 1) bs (m.write c a b)

/-- The `len` bytes at consecutive addresses from `a`. -/
def Memory.readBytes (c : Config) (m : Memory) (a len : Nat) : List Byte :=
  (List.range len).map fun k => m.read c (a + k)

/-- The canonical form: addresses strictly rising and existing, no entry equal to what an unlisted
address reads as. -/
abbrev Memory.wf (c : Config) (m : Memory) : Prop :=
  m.Pairwise (fun d e => d.1 < e.1) ∧ ∀ e ∈ m, e.1 < c.memSize ∧ e.2 ≠ Memory.unlisted c e.1

/-- `mem[a]`. -/
def State.byteAt (c : Config) (s : State) (a : Nat) : Byte := s.mem.read c a

/-- Whether the `len` bytes from `a` all exist (R53, 43_index_memory.md R140). An access to no byte
is in bounds wherever it starts (44_display.md R152, n = 0). -/
def spanInBounds (c : Config) (a len : Nat) : Bool := decide (len = 0 ∨ a + len ≤ c.memSize)

/-- The access check of R53 and R140, made before the first access: `k` if all `len` bytes from `a`
exist, else `MemOutOfBounds` of the lowest address that does not (UNVERIFIED, the spec's D13;
log 18, safe). -/
def guardSpan (c : Config) (a len : Nat) (k : Result) : Result :=
  if spanInBounds c a len then k else .fault (.memOutOfBounds (max a c.memSize))

/-! The framebuffer. -/

/-- The linear index of the cell in column `px`, row `py` (R28; UNVERIFIED, the spec's D5; log 6). -/
def pixelIndex (c : Config) (px py : Nat) : Nat := py * c.fbWidth + px

/-- Whether the cell of linear index `i` is 1. -/
def Display.cell (d : Display) (i : Nat) : Bool := d.contains i

/-- An index put in its place. -/
def Display.insert (i : Nat) : Display → Display
  | [] => [i]
  | j :: d => if i < j then i :: j :: d else j :: Display.insert i d

/-- `fb[i] <- fb[i] ^ 1`. -/
def Display.toggle (i : Nat) (d : Display) : Display :=
  if d.cell i then d.filter fun j => j != i else Display.insert i d

/-- The canonical form: strictly rising indices of cells the framebuffer has. -/
abbrev Display.wf (c : Config) (d : Display) : Prop :=
  d.Pairwise (· < ·) ∧ ∀ i ∈ d, i < c.fbWidth * c.fbHeight

/-- `fb[px, py]` (R28). -/
def State.pixel (c : Config) (s : State) (px py : Nat) : Bool := s.fb.cell (pixelIndex c px py)

/-! The call stack (R24). -/

/-- `push(w)`: `StackOverflow` when the stack is full (UNVERIFIED, the spec's D7; log 8, safe). -/
def push (c : Config) (w : Word) (s : State) : Except Fault State :=
  if s.stack.length < c.stackDepth then .ok (s.setStack (w :: s.stack))
  else .error (.stackOverflow s.pc)

/-- `pop()`: `StackUnderflow` when the stack is empty (UNVERIFIED, the spec's D8; log 8, safe). -/
def pop (s : State) : Except Fault (Word × State) :=
  match s.stack with
  | [] => .error (.stackUnderflow s.pc)
  | w :: l => .ok (w, s.setStack l)

/-! Keys (R30). -/

/-- `key[k]`. -/
def State.key (s : State) (k : Nibble) : Bool := s.keys[k.toNat]'k.isLt

/-- The least `k` with `key[k] = 1`, if any (45_keys_timers.md R163). -/
def State.lowestKey (s : State) : Option Nibble :=
  ((List.range 16).find? fun k => s.key (BitVec.ofNat 4 k)).map (BitVec.ofNat 4)

/-! The end of a cycle. -/

/-- One tick of a timer: it saturates at 0 (R94). -/
def countDown (b : Byte) : Byte := if b = 0 then 0 else b - 1

/-- `Tick()` (R94): both timers count down, and `beep` is emitted when this tick takes `ST` to 1. -/
def tick (s : State) : State :=
  ((s.setDt (countDown s.dt)).setSt (countDown s.st)).emitBeeps
    (if s.st ≠ 0 ∧ countDown s.st = 1 then 1 else 0)

/-- Phases 4 and 5 of R90 after an instruction's own effect: tick, `pc <- next`, `waiting <- 0`,
`Done`. -/
def complete (next : Word) (s : State) : Result :=
  .next (((tick s).setPc next).setWaiting false)

/-- The outcome `Waiting` (R97): `waiting <- 1` and nothing else; no tick, `pc` stays
(UNVERIFIED, the spec's D26; log 19, unsafe). -/
def wait (s : State) : Result := .next (s.setWaiting true)

/-- The default advance: `next = pc + 2` (R93). -/
def advance (s : State) : Result := complete (s.pc + 2) s

/-- A skip: `next = pc + 4` when the condition holds, else `pc + 2` (R93). -/
def skipIf (cond : Bool) (s : State) : Result :=
  complete (if cond then s.pc + 4 else s.pc + 2) s

/-! The cycle. -/

/-- Phase 1 (R91): the big-endian word at `pc`, if both bytes exist (UNVERIFIED, the spec's D12 on
the bound and D11 on an odd `pc`; log 18). -/
def fetch (c : Config) (s : State) : Except Fault Word :=
  if s.pc.toNat + 1 < c.memSize then
    .ok (wordOfBytes (s.byteAt c s.pc.toNat) (s.byteAt c (s.pc.toNat + 1)))
  else .error (.fetchOutOfBounds s.pc)

/-- R90: fetch, decode, and the rest of the cycle as `run` gives it for the decoded instruction. -/
def cycle (c : Config) (run : Instr → State → Result) (s : State) : Result :=
  match fetch c s with
  | .error f => .fault f
  | .ok op =>
    match decode op with
    | none => .fault (.unknownOpcode op)
    | some i => run i s

/-- `bytes` put where the next fetch reads: at `pc`, or, where `pc` addresses no fetchable word, at
`TEXT_OFFSET` with `pc` set to it as a `Load` sets it (log 12). -/
def placeAtFetch (c : Config) (bytes : List Byte) (s : State) : State :=
  if s.pc.toNat + 1 < c.memSize then s.setMem (s.mem.writeBytes c s.pc.toNat bytes)
  else (s.setMem (s.mem.writeBytes c c.textOffset bytes)).setPc (BitVec.ofNat 16 c.textOffset)

end Sys2Proof.Machine
end

