-- ==== Sys2Proof/Machine/Flags.lean ====
section
/-! DEFINITION. The `VF` computations of 10_state.md R21, and the order of the two writes. -/

namespace Sys2Proof.Machine

/-- A flag as a register value: exactly 0 or 1 in all 8 bits (R121). -/
def flagByte (b : Bool) : Byte := if b then 1 else 0

/-- `VF` of 8xy4: the sum exceeds 255 (42_alu.md R128). -/
def carry (a b : Byte) : Bool := decide (255 < a.toNat + b.toNat)

/-- `VF` of a subtraction `a - b`: 1 where nothing is borrowed (R129, R131; UNVERIFIED, the spec's
D18 on equal operands and D17 on the 0; log 17, unsafe). -/
def noBorrow (a b : Byte) : Bool := decide (b.toNat ≤ a.toNat)

/-- `VF` of 8xy6: bit 0 before the shift (R130). -/
def lowBit (a : Byte) : Bool := a.getLsbD 0

/-- `VF` of 8xyE: bit 7 before the shift (R132). -/
def highBit (a : Byte) : Bool := a.getLsbD 7

/-- `VF` of Fx1E: the sum exceeds 0x0FFF (43_index_memory.md R142; UNVERIFIED, the spec's D3 and D17;
log 17, unsafe). -/
def indexOverflow (sum : Nat) : Bool := decide (Config.addrMask.toNat < sum)

/-- `VF <- flag`. -/
def State.setFlag (s : State) (b : Bool) : State := s.setReg 0xF (flagByte b)

/-- `V[x] <- result`, then `VF <- flag`: with x = 15 the flag stays (R121; UNVERIFIED, the spec's D16;
log 16, unsafe). -/
def State.setRegAndFlag (s : State) (x : Reg) (result : Byte) (flag : Bool) : State :=
  (s.setReg x result).setFlag flag

end Sys2Proof.Machine
end

