-- ==== Sys2Proof/Machine/Operands.lean ====
section
/-! DEFINITION. The operand forms (30_encoding.md R73, 43_index_memory.md R140). -/

namespace Sys2Proof.Machine

/-- `nnn` as an address: widened with zeros, used as is (R73). -/
def addressOf (nnn : Addr12) : Word := nnn.setWidth 16

/-- The target of Bnnn: `nnn + V[0]`, no mask, no wrap (41_control_flow.md R107). -/
def computedTarget (nnn : Addr12) (s : State) : Word :=
  BitVec.ofNat 16 (nnn.toNat + (s.reg 0).toNat)

/-- The base of every data access: `I`; the bytes are at `I + k`, without wrap or mask
(20_memory.md R58). -/
def dataBase (s : State) : Nat := s.index.toNat

/-- `I + V[x]` before any mask (43_index_memory.md R142). -/
def indexSum (x : Reg) (s : State) : Nat := s.index.toNat + (s.reg x).toNat

/-- `I + x + 1` before the mask, where Fx55 and Fx65 leave `I` (R145, R146). -/
def indexAfterBlock (x : Reg) (s : State) : Word := BitVec.ofNat 16 (s.index.toNat + x.toNat + 1)

/-- `5 * V[x]`, the whole 8-bit value (R143). -/
def glyphAddress (x : Reg) (s : State) : Word :=
  BitVec.ofNat 16 (Config.glyphStride * (s.reg x).toNat)

/-- The key `V[x]` selects: its low 4 bits (45_keys_timers.md R160; UNVERIFIED, the spec's D24;
log 13, unsafe). -/
def selectedKey (x : Reg) (s : State) : Nibble := (s.reg x).setWidth 4

/-- `V[0] .. V[x]`, in order (R145). -/
def regsUpTo (x : Reg) (s : State) : List Byte :=
  (List.range (x.toNat + 1)).map fun k => s.reg (BitVec.ofNat 4 k)

/-- Hundreds, tens and ones of a byte (R144). -/
def decimalDigits (b : Byte) : List Byte :=
  [BitVec.ofNat 8 (b.toNat / 100), BitVec.ofNat 8 (b.toNat / 10 % 10), BitVec.ofNat 8 (b.toNat % 10)]

end Sys2Proof.Machine
end

