-- ==== Sys2Proof/Machine/Alu.lean ====
section
/-! DEFINITION. Register load, arithmetic, logic, shift, random (42_alu.md). Results are computed
exactly and reduced modulo 256 at the end (R120). -/

namespace Sys2Proof.Machine

/-- LD Vx, kk (R122). -/
def execLdImm (x : Reg) (kk : Byte) (s : State) : Result := advance (s.setReg x kk)

/-- ADD Vx, kk (R123): no flag. -/
def execAddImm (x : Reg) (kk : Byte) (s : State) : Result :=
  advance (s.setReg x (BitVec.ofNat 8 ((s.reg x).toNat + kk.toNat)))

/-- LD Vx, Vy (R124). -/
def execLdReg (x y : Reg) (s : State) : Result := advance (s.setReg x (s.reg y))

/-- OR Vx, Vy (R125): no flag. -/
def execOrReg (x y : Reg) (s : State) : Result := advance (s.setReg x (s.reg x ||| s.reg y))

/-- AND Vx, Vy (R126): no flag. -/
def execAndReg (x y : Reg) (s : State) : Result := advance (s.setReg x (s.reg x &&& s.reg y))

/-- XOR Vx, Vy (R127): no flag. -/
def execXorReg (x y : Reg) (s : State) : Result := advance (s.setReg x (s.reg x ^^^ s.reg y))

/-- ADD Vx, Vy (R128). -/
def execAddReg (x y : Reg) (s : State) : Result :=
  advance (s.setRegAndFlag x (BitVec.ofNat 8 ((s.reg x).toNat + (s.reg y).toNat))
    (carry (s.reg x) (s.reg y)))

/-- SUB Vx, Vy (R129). -/
def execSubReg (x y : Reg) (s : State) : Result :=
  advance (s.setRegAndFlag x (BitVec.ofNat 8 ((s.reg x).toNat + 256 - (s.reg y).toNat))
    (noBorrow (s.reg x) (s.reg y)))

/-- SHR Vx (R130): `V[y]` is neither read nor written. -/
def execShr (x _y : Reg) (s : State) : Result :=
  advance (s.setRegAndFlag x (BitVec.ofNat 8 ((s.reg x).toNat / 2)) (lowBit (s.reg x)))

/-- SUBN Vx, Vy (R131). -/
def execSubn (x y : Reg) (s : State) : Result :=
  advance (s.setRegAndFlag x (BitVec.ofNat 8 ((s.reg y).toNat + 256 - (s.reg x).toNat))
    (noBorrow (s.reg y) (s.reg x)))

/-- SHL Vx (R132): `V[y]` is neither read nor written. -/
def execShl (x _y : Reg) (s : State) : Result :=
  advance (s.setRegAndFlag x (BitVec.ofNat 8 ((s.reg x).toNat * 2)) (highBit (s.reg x)))

/-- RND Vx, kk (R133): the byte is the free value of this draw (log 2). -/
def execRnd (x : Reg) (kk : Byte) (s : State) : Result :=
  advance ((s.setReg x (Config.rand8 s.draws &&& kk)).countDraw)

end Sys2Proof.Machine
end

