-- ==== Sys2Proof/Machine/ControlFlow.lean ====
section
/-! DEFINITION. Control transfer (41_control_flow.md). -/

namespace Sys2Proof.Machine

/-- 00EE (R100): the popped value is the CALL's own address; 2 is added. -/
def ret (s : State) : Result :=
  match pop s with
  | .error f => .fault f
  | .ok (w, t) => complete (w + 2) t

/-- 2nnn under a configuration (R102): push the CALL's own address, go to `nnn`. -/
def call (c : Config) (nnn : Addr12) (s : State) : Result :=
  match push c s.pc s with
  | .error f => .fault f
  | .ok t => complete (addressOf nnn) t

/-- RET (R100). -/
def execRet (s : State) : Result := ret s

/-- JP nnn (R101). -/
def execJp (nnn : Addr12) (s : State) : Result := complete (addressOf nnn) s

/-- CALL nnn (R102). -/
def execCall (nnn : Addr12) (s : State) : Result := call Config.hw nnn s

/-- SE Vx, kk (R103). -/
def execSeImm (x : Reg) (kk : Byte) (s : State) : Result := skipIf (s.reg x == kk) s

/-- SNE Vx, kk (R104). -/
def execSneImm (x : Reg) (kk : Byte) (s : State) : Result := skipIf (s.reg x != kk) s

/-- SE Vx, Vy (R105). -/
def execSeReg (x y : Reg) (s : State) : Result := skipIf (s.reg x == s.reg y) s

/-- SNE Vx, Vy (R106). -/
def execSneReg (x y : Reg) (s : State) : Result := skipIf (s.reg x != s.reg y) s

/-- JP V0, nnn (R107). -/
def execJpV0 (nnn : Addr12) (s : State) : Result := complete (computedTarget nnn s) s

end Sys2Proof.Machine
end

