-- ==== Sys2Proof/Machine/Display.lean ====
section
/-! DEFINITION. The framebuffer instructions (44_display.md). -/

namespace Sys2Proof.Machine

/-- The cells one sprite byte's set bits target, bit 7 leftmost: (column, row) as plain integers
(R151). -/
def spriteRow (vx py : Nat) (b : Byte) : List (Nat × Nat) :=
  (List.range 8).filterMap fun k => if b.getLsbD (7 - k) then some (vx + k, py) else none

/-- The cells a sprite's set bits target, top row first, the first row at `py` (R151). -/
def spriteCells (vx : Nat) : Nat → List Byte → List (Nat × Nat)
  | _, [] => []
  | py, b :: bs => spriteRow vx py b ++ spriteCells vx (py + 1) bs

/-- R153: the target lies outside the framebuffer. -/
def outOfFrame (c : Config) (p : Nat × Nat) : Bool := decide (c.fbWidth ≤ p.1 ∨ c.fbHeight ≤ p.2)

/-- R153: the cell a target really touches, if any. An out-of-frame bit is dropped under `clip`,
reduced in each coordinate under `wrap`; under `fault` the draw has already ended. -/
def placePixel (c : Config) (p : Nat × Nat) : Option (Nat × Nat) :=
  if outOfFrame c p then
    match c.oobPolicy with
    | .clip => none
    | .wrap => some (p.1 % c.fbWidth, p.2 % c.fbHeight)
    | .fault => none
  else some p

/-- One set bit drawn: the collision so far, or whether the cell was on; the cell toggled (R152). -/
def drawPixel (c : Config) (acc : Bool × Display) (p : Nat × Nat) : Bool × Display :=
  (acc.1 || acc.2.cell (pixelIndex c p.1 p.2), acc.2.toggle (pixelIndex c p.1 p.2))

/-- The collision flag and the framebuffer after the given targets are drawn; the flag is the or
over the toggled cells, starting from 0 (UNVERIFIED, the spec's D20; log 15, unsafe). -/
def drawPixels (c : Config) (targets : List (Nat × Nat)) (d : Display) : Bool × Display :=
  (targets.filterMap (placePixel c)).foldl (drawPixel c) (false, d)

/-- The targets of Dxyn's sprite: `n` bytes at `I`, placed at (V[x], V[y]). -/
def spriteTargets (c : Config) (x y : Reg) (n : Nibble) (s : State) : List (Nat × Nat) :=
  spriteCells (s.reg x).toNat (s.reg y).toNat (s.mem.readBytes c (dataBase s) n.toNat)

/-- Dxyn's effect once nothing faults: the cells, then `VF`, then `redraw`, set by every execution
(UNVERIFIED, the spec's D22; log 26, unsafe). -/
def composite (c : Config) (targets : List (Nat × Nat)) (s : State) : State :=
  ((s.setFb (drawPixels c targets s.fb).2).setFlag (drawPixels c targets s.fb).1).setRedraw true

/-- Dxyn under a configuration (R152, R153): the memory check of all `n` rows, then, under the
policy `fault`, the frame check, then the drawing. -/
def drawSprite (c : Config) (x y : Reg) (n : Nibble) (s : State) : Result :=
  guardSpan c (dataBase s) n.toNat
    (if c.oobPolicy = .fault ∧ (spriteTargets c x y n s).any (outOfFrame c) then
      .fault (.spriteOutOfFrame s.pc)
    else advance (composite c (spriteTargets c x y n s) s))

/-- CLS (R150): every cell 0, `redraw` set whether or not a cell changed. -/
def execCls (s : State) : Result := advance ((s.setFb []).setRedraw true)

/-- DRW Vx, Vy, n (R152). -/
def execDrw (x y : Reg) (n : Nibble) (s : State) : Result := drawSprite Config.hw x y n s

end Sys2Proof.Machine
end

