-- ==== Sys2Proof/Machine/IndexMemory.lean ====
section
/-! DEFINITION. The index register and the memory transfers (43_index_memory.md). -/

namespace Sys2Proof.Machine

/-- Fx33 under a configuration (R144). -/
def storeDigits (c : Config) (x : Reg) (s : State) : Result :=
  guardSpan c (dataBase s) 3
    (advance (s.setMem (s.mem.writeBytes c (dataBase s) (decimalDigits (s.reg x)))))

/-- Fx55 under a configuration (R145). -/
def storeBlock (c : Config) (x : Reg) (s : State) : Result :=
  guardSpan c (dataBase s) (x.toNat + 1)
    (advance ((s.setMem (s.mem.writeBytes c (dataBase s) (regsUpTo x s))).setIndex
      (indexAfterBlock x s)))

/-- Fx65 under a configuration (R146). -/
def loadBlock (c : Config) (x : Reg) (s : State) : Result :=
  guardSpan c (dataBase s) (x.toNat + 1)
    (advance ((s.setRegsUpTo x fun k => s.byteAt c (dataBase s + k)).setIndex
      (indexAfterBlock x s)))

/-- LD I, nnn (R141). -/
def execLdI (nnn : Addr12) (s : State) : Result := advance (s.setIndex (addressOf nnn))

/-- ADD I, Vx (R142). -/
def execAddI (x : Reg) (s : State) : Result :=
  advance ((s.setIndex (BitVec.ofNat 16 (indexSum x s))).setFlag (indexOverflow (indexSum x s)))

/-- LD F, Vx (R143). -/
def execLdF (x : Reg) (s : State) : Result := advance (s.setIndex (glyphAddress x s))

/-- LD B, Vx (R144). -/
def execLdB (x : Reg) (s : State) : Result := storeDigits Config.hw x s

/-- LD [I], Vx (R145). -/
def execStoreRegs (x : Reg) (s : State) : Result := storeBlock Config.hw x s

/-- LD Vx, [I] (R146). -/
def execLoadRegs (x : Reg) (s : State) : Result := loadBlock Config.hw x s

end Sys2Proof.Machine
end

