-- ==== Sys2Proof/Machine/KeysTimers.lean ====
section
/-! DEFINITION. Key and timer instructions (45_keys_timers.md). -/

namespace Sys2Proof.Machine

/-- SKP Vx (R161). -/
def execSkp (x : Reg) (s : State) : Result := skipIf (s.key (selectedKey x s)) s

/-- SKNP Vx (R162). -/
def execSknp (x : Reg) (s : State) : Result := skipIf (!s.key (selectedKey x s)) s

/-- LD Vx, DT (R164): the value before this cycle's tick. -/
def execLdVxDt (x : Reg) (s : State) : Result := advance (s.setReg x s.dt)

/-- LD Vx, K (R163): level-sensitive (UNVERIFIED, the spec's D25; log 20, unsafe); the lowest
pressed key. -/
def execLdVxK (x : Reg) (s : State) : Result :=
  match s.lowestKey with
  | none => wait s
  | some k => advance (s.setReg x (k.setWidth 8))

/-- LD DT, Vx (R165): the same cycle's tick follows. -/
def execLdDtVx (x : Reg) (s : State) : Result := advance (s.setDt (s.reg x))

/-- LD ST, Vx (R166): the same cycle's tick follows. -/
def execLdStVx (x : Reg) (s : State) : Result := advance (s.setSt (s.reg x))

end Sys2Proof.Machine
end

