-- ==== Sys2Proof/Machine/Step.lean ====
section
/-! DEFINITION. The `Step` transaction (40_cycle.md R90), and placing a word where the next fetch
reads. -/

namespace Sys2Proof.Machine

/-- One `Step` of this hardware. `Done` and `Waiting` are next states, `Waiting` exactly when the
instruction was Fx0A and no key is pressed; then `waiting` is set in the next state (log 4). -/
def step (s : State) : Host.Outcome State Fault Refusal := cycle Config.hw exec s

/-- `s` with the opcode table's word where `step` fetches its next instruction (log 12). -/
def State.withFetchWord (s : State) (nbits w : Nat) : State :=
  placeAtFetch Config.hw (tableBytes nbits w) s

end Sys2Proof.Machine
end

