-- ==== Sys2Proof/Machine/Transactions.lean ====
section
/-! DEFINITION. The host's transactions (00_scope.md R9, 60_exceptions.md R189). They happen only
between cycles (UNVERIFIED, the spec's D35; log 11). -/

namespace Sys2Proof.Machine

/-- `Load` (70_reset_and_hazards.md R202): the image copied to `TEXT_OFFSET`, `pc` set to it,
`waiting` cleared; a too long image changes nothing (UNVERIFIED, the spec's D10 and D27; log 21). -/
def load (c : Config) (bytes : List Byte) (s : State) : Except LoadError State :=
  if c.memSize - c.textOffset < bytes.length then .error (.tooLarge bytes.length)
  else .ok (((s.setMem (s.mem.writeBytes c c.textOffset bytes)).setPc
    (BitVec.ofNat 16 c.textOffset)).setWaiting false)

/-- `KeyUpdate` (60_exceptions.md R183): `key[k] <- p`, nothing else; an index outside 0 .. 15 is a
caller error (UNVERIFIED, the spec's D33; log 24). -/
def keyUpdate (k : Int) (p : Bool) (s : State) : Except CallerError State :=
  if 0 ≤ k ∧ k < 16 then .ok (s.setKey (BitVec.ofInt 4 k) p) else .error .indexOutOfRange

/-- `FrameQuery` (44_display.md R155): the cell in column `i mod FB_W`, row `i div FB_W`; an index
outside the framebuffer is a caller error. -/
def frameQuery (c : Config) (i : Int) (s : State) : Except CallerError Bool :=
  if 0 ≤ i ∧ i < c.fbWidth * c.fbHeight then
    .ok (s.pixel c (i.toNat % c.fbWidth) (i.toNat / c.fbWidth))
  else .error .indexOutOfRange

/-- `RedrawPending` (R156). -/
def redrawPending (s : State) : Bool := s.redraw

/-- `ClearRedraw` (R156). -/
def clearRedraw (s : State) : State := s.setRedraw false

/-- The six transactions of R9. -/
inductive Transaction where
  | step
  | load (bytes : List Byte)
  | keyUpdate (k : Int) (pressed : Bool)
  | frameQuery (i : Int)
  | redrawPending
  | clearRedraw
  deriving DecidableEq, Repr

/-- What the host is told (R9, R10, R170). -/
inductive Reply where
  /-- `Step`: one instruction completed; whether its tick emitted `beep` (R94). -/
  | done (beep : Bool)
  /-- `Step`: the instruction is Fx0A and no key is pressed. -/
  | waiting
  /-- `Step`: a fatal fault; nothing changed. -/
  | fault (f : Fault)
  /-- `Step`: no meaning in this model; no instruction answers it. -/
  | refused (r : Refusal)
  /-- `Load`: `Ok`. -/
  | ok
  /-- `Load`: a load error; nothing changed. -/
  | loadFailed (e : LoadError)
  /-- `FrameQuery`, `KeyUpdate`: a caller error; nothing changed. -/
  | callerError (e : CallerError)
  /-- `FrameQuery`, `RedrawPending`: one bit. -/
  | bit (b : Bool)
  /-- `KeyUpdate`, `ClearRedraw`: no result. -/
  | none
  deriving DecidableEq, Repr

/-- One transaction of this hardware: the state after it and the reply. A failing one leaves the
state as it was (40_cycle.md R96, 70_reset_and_hazards.md R203, 60_exceptions.md R176). -/
def transact : Transaction → State → State × Reply
  | .step, s =>
    match step s with
    | .next t => (t, if t.waiting then .waiting else .done (decide (s.beeps < t.beeps)))
    | .fault f => (s, .fault f)
    | .refused r => (s, .refused r)
  | .load bytes, s =>
    match load Config.hw bytes s with
    | .ok t => (t, .ok)
    | .error e => (s, .loadFailed e)
  | .keyUpdate k p, s =>
    match keyUpdate k p s with
    | .ok t => (t, .none)
    | .error e => (s, .callerError e)
  | .frameQuery i, s =>
    match frameQuery Config.hw i s with
    | .ok b => (s, .bit b)
    | .error e => (s, .callerError e)
  | .redrawPending, s => (s, .bit (redrawPending s))
  | .clearRedraw, s => (clearRedraw s, .none)

/-- The state after a sequence of transactions, whatever they replied: after a fatal fault the host may
still issue any of them, a `Load` among them (60_exceptions.md R180). A run of R213, which ends at
the first fatal fault, is `hostRun`. -/
def runTransactions : List Transaction → State → State
  | [], s => s
  | a :: l, s => runTransactions l (transact a s).1

/-- The two severities of R170. -/
inductive Severity where
  | fatal
  | callerError
  deriving DecidableEq, Repr

/-- The code of a `Step` fault (R170); a label, held in no register. -/
def Fault.code : Fault → Nat
  | .fetchOutOfBounds _ => 1
  | .unknownOpcode _ => 2
  | .stackOverflow _ => 3
  | .stackUnderflow _ => 4
  | .memOutOfBounds _ => 5
  | .spriteOutOfFrame _ => 6

/-- The code of a failed transaction (R170), none where it did not fail. -/
def Reply.code : Reply → Option Nat
  | .fault f => some f.code
  | .loadFailed (.tooLarge _) => some 7
  | .loadFailed .unreadable => some 8
  | .callerError _ => some 9
  | .done _ | .waiting | .refused _ | .ok | .bit _ | .none => Option.none

/-- The severity of a failed transaction (R170), none where it did not fail. -/
def Reply.severity : Reply → Option Severity
  | .fault _ | .loadFailed _ => some .fatal
  | .callerError _ => some .callerError
  | .done _ | .waiting | .refused _ | .ok | .bit _ | .none => Option.none

/-- The reply ends the run it comes in, as a failed one: its severity is fatal (R170, R180). A refusal
ends it too, since the model says nothing beyond it; no instruction answers one. -/
def Reply.endsRun : Reply → Bool
  | .fault _ | .refused _ | .loadFailed _ => true
  | .done _ | .waiting | .ok | .callerError _ | .bit _ | .none => false

/-- A run so far (70_reset_and_hazards.md R213). -/
structure Run where
  /-- The state it has come to; after a failure, the state the failing transaction found. -/
  state : State
  /-- The replies of the transactions made, in order. -/
  replies : List Reply
  /-- The last reply ended the run in failure. -/
  failed : Bool
  deriving DecidableEq, Repr

/-- The run of `Step`s and other transactions that the host issues from `s`, as far as it comes: it
ends in failure at the first fatal fault, and of the transactions after that none is made; else it
stands where the host stops (R213; UNVERIFIED, the spec's D34; log 28, safe). An infinite run is the
runs of its finite beginnings. -/
def hostRun : List Transaction → State → Run
  | [], s => { state := s, replies := [], failed := false }
  | a :: l, s =>
    if (transact a s).2.endsRun then
      { state := (transact a s).1, replies := [(transact a s).2], failed := true }
    else
      { hostRun l (transact a s).1 with
        replies := (transact a s).2 :: (hostRun l (transact a s).1).replies }

end Sys2Proof.Machine
end

