-- ==== Sys2Proof/Safety.lean ====
section
/-! DEFINITION. The terms the statements use: what a step answered, what a completed cycle leaves,
what an instruction leaves unchanged, the invariant of the machine, and the states a host can
bring it to. -/

namespace Sys2Proof.Machine

/-- The next state of an answer, if it is one. -/
def nextOf : Result → Option State
  | .next s => some s
  | .fault _ => none
  | .refused _ => none

/-- The fault of an answer, if it is one. -/
def faultOf : Result → Option Fault
  | .next _ => none
  | .fault f => some f
  | .refused _ => none

/-- Both timers one lower, never below 0, and one `beep` emitted exactly where the sound timer goes
from 2 to 1 (40_cycle.md R94); `dt0` and `st0` are the values the tick found. -/
def TickedFrom (dt0 st0 : Byte) (s t : State) : Prop :=
  t.dt.toNat = dt0.toNat - 1 ∧ t.st.toNat = st0.toNat - 1 ∧
  t.beeps = s.beeps + (if st0 = 2 then 1 else 0)

/-- The cycle completed as `Done` (R90, R93): the timers ticked from their values before it, `pc` is
`next` and `waiting` is 0. -/
def CompletedAt (next : Word) (s t : State) : Prop :=
  TickedFrom s.dt s.st s t ∧ t.pc = next ∧ t.waiting = false

/-- The state besides registers, keys, timers, `pc` and `waiting`, item by item. -/
inductive Item where
  | index | stack | memory | framebuffer | redraw | draws
  deriving DecidableEq, Repr

/-- The item has in `t` what it had in `s`; memory is compared byte by byte, every address. -/
def Kept (c : Config) : Item → State → State → Prop
  | .index, s, t => t.index = s.index
  | .stack, s, t => t.stack = s.stack
  | .memory, s, t => ∀ a, t.byteAt c a = s.byteAt c a
  | .framebuffer, s, t => t.fb = s.fb
  | .redraw, s, t => t.redraw = s.redraw
  | .draws, s, t => t.draws = s.draws

/-- Nothing changed but the registers of `regs` and the items of `items` (timers, `pc` and `waiting`
are `CompletedAt`'s): every other register, every other item and every key is as before. -/
def OnlyChanged (c : Config) (regs : List Reg) (items : List Item) (s t : State) : Prop :=
  (∀ r, r ∉ regs → t.reg r = s.reg r) ∧ (∀ k, k ∉ items → Kept c k s t) ∧ t.keys = s.keys

/-- A completed cycle that changed only the given registers and items, with `pc` going to `next`. -/
def DoneChanging (c : Config) (regs : List Reg) (items : List Item) (next : Word) (s t : State) :
    Prop :=
  CompletedAt next s t ∧ OnlyChanged c regs items s t

/-- Every register. -/
def allRegs : List Reg := (List.range 16).map (BitVec.ofNat 4)

/-- The sprite of `n` rows at address `base`, placed at column `vx`, row `vy`, has a set bit over
column `px`, row `py`, both counted as plain integers (44_display.md R151). -/
def SpriteCovers (c : Config) (s : State) (base n vx vy px py : Nat) : Prop :=
  ∃ col row, col < 8 ∧ row < n ∧ px = vx + col ∧ py = vy + row ∧
    (s.byteAt c (base + row)).getLsbD (7 - col) = true

/-- The same with each coordinate reduced by the frame's size (R153, `wrap`). -/
def SpriteWrapsOnto (c : Config) (s : State) (base n vx vy px py : Nat) : Prop :=
  ∃ qx qy, SpriteCovers c s base n vx vy qx qy ∧ px = qx % c.fbWidth ∧ py = qy % c.fbHeight

/-- The draw of the set bits that `On` names: each such cell flipped, every other cell as it was, and
`VF` 1 exactly if one of them was on before (R152). -/
def Composited (c : Config) (On : Nat → Nat → Prop) (s t : State) : Prop :=
  (∀ px py, px < c.fbWidth → py < c.fbHeight →
    (On px py → t.pixel c px py = !s.pixel c px py) ∧
    (¬ On px py → t.pixel c px py = s.pixel c px py)) ∧
  (∀ i, c.fbWidth * c.fbHeight ≤ i → t.fb.cell i = s.fb.cell i) ∧
  ((∃ px py, px < c.fbWidth ∧ py < c.fbHeight ∧ On px py ∧ s.pixel c px py = true) →
    t.reg 0xF = 1) ∧
  ((∀ px py, px < c.fbWidth → py < c.fbHeight → On px py → s.pixel c px py = false) →
    t.reg 0xF = 0)

/-- The number an instruction's operands add to its row's match value (30_encoding.md R79). -/
def operandValue (o : RawOperands) : Format → Nat
  | .exact => 0
  | .address => o.nnn
  | .regImm => o.x * 256 + o.kk
  | .regReg => o.x * 256 + o.y * 16
  | .regRegNibble => o.x * 256 + o.y * 16 + o.n
  | .reg => o.x * 256

/-- The instruction the next fetch reads, if there is one. -/
def fetched (c : Config) (s : State) : Option Instr :=
  match fetch c s with
  | .ok op => decode op
  | .error _ => none

/-- What holds of the machine between any two transactions. -/
structure Inv (c : Config) (s : State) : Prop where
  /-- Memory is in canonical form (log 7). -/
  mem : Memory.wf c s.mem
  /-- The framebuffer is in canonical form and holds no cell outside it (log 6). -/
  fb : Display.wf c s.fb
  /-- The upper 4 bits of `I` are 0 (10_state.md R22). -/
  index : s.index.toNat ≤ 0x0FFF
  /-- The largest `pc` a rule produces is 4350 (R23). -/
  pc : s.pc.toNat ≤ 4350
  /-- `sp <= STACK_DEPTH` (R24). -/
  depth : s.stack.length ≤ c.stackDepth
  /-- Every saved `pc` is one that fetched (41_control_flow.md R100). -/
  saved : ∀ w ∈ s.stack, w.toNat + 1 < c.memSize
  /-- `waiting` is 1 only while the instruction at `pc` is Fx0A (R31). -/
  atKeyWait : s.waiting = true → ∃ x, fetched c s = some (.ldVxK x)

/-- The states the host can bring this hardware to from construction, by any transactions in any
order (60_exceptions.md R189). -/
def Reachable (s : State) : Prop := ∃ l, runTransactions l State.reset = s

/-- A safe run of `n` steps: no step faults or refuses. -/
def SafeFor (n : Nat) (s : State) : Prop := ∃ t, Host.Core.run Sys2Proof.core n s = .next t

/-- A safe run of the host's transactions: none of them ends it in failure (R213). -/
def SafeRun (l : List Transaction) (s : State) : Prop := (hostRun l s).failed = false

end Sys2Proof.Machine
end

