-- ==== Sys2Proof/Certificates/Slice0/Obligations.lean ====
section
/-! DEFINITION. The statements for the provers. Each is about the machine, for every state unless it says
otherwise, and cites the rule of spec/ it formalises. -/

open Sys2Proof Sys2Proof.Machine

/-- Words of the spec's decoding vectors decode as listed, unknown ones to none.
Words of 95_test_vectors.md section 2.1. That 0x5121 and 0x01E0 are unknown is the spec's decision D15 (log 27). -/
def Obligations.SampleWordsDecode : Prop :=
  decode 0x00E0 = some .cls ∧ decode 0x00EE = some .ret ∧
  decode 0x1000 = some (.jp 0x000) ∧ decode 0x2FFF = some (.call 0xFFF) ∧
  decode 0x3A00 = some (.seImm 0xA 0x00) ∧ decode 0x4FFF = some (.sneImm 0xF 0xFF) ∧
  decode 0x5120 = some (.seReg 1 2) ∧ decode 0x9AB0 = some (.sneReg 0xA 0xB) ∧
  decode 0x6F01 = some (.ldImm 0xF 0x01) ∧ decode 0x8AB4 = some (.addReg 0xA 0xB) ∧
  decode 0x8126 = some (.shr 1 2) ∧ decode 0x812E = some (.shl 1 2) ∧
  decode 0xA000 = some (.ldI 0x000) ∧ decode 0xBFFF = some (.jpV0 0xFFF) ∧
  decode 0xC0FF = some (.rnd 0 0xFF) ∧ decode 0xD7A5 = some (.drw 7 0xA 5) ∧
  decode 0xE19E = some (.skp 1) ∧ decode 0xE1A1 = some (.sknp 1) ∧
  decode 0xF007 = some (.ldVxDt 0) ∧ decode 0xF165 = some (.loadRegs 1) ∧
  decode 0x0000 = none ∧ decode 0x01E0 = none ∧ decode 0x5121 = none ∧
  decode 0x8008 = none ∧ decode 0xE19F = none ∧ decode 0xF166 = none ∧ decode 0xF090 = none

/-- Decoding an instruction's word, or its two bytes with any bytes after them, gives it back.
Rules R70, R71 and the encoding recipe of R79. -/
def Obligations.DecodeUndoesEncode : Prop :=
  ∀ (i : Instr) (rest : List Byte), decode (encode i) = some i ∧
    decodeBytes (bytesOfWord (encode i) ++ rest) = .ok (i, rest)

/-- A word that decodes to an instruction is that instruction's word: no bit is dropped.
Rules R74 and R77: one meaning a word, and the y field of the shifts is decoded. -/
def Obligations.EncodeUndoesDecode : Prop :=
  ∀ (op : Word) (i : Instr), decode op = some i → encode i = op

/-- A word's row is the one whose mask and match it meets, and none where it meets none.
The mask and match test of R74; reading the patterns exactly is the spec's decision D15 (log 27). -/
def Obligations.DecodeSelectsTheMatchingRow : Prop :=
  ∀ op : Word, (∀ r : Row, decodeRow op = some r ↔ op &&& r.mask = r.bits) ∧
    (decode op = none ↔ ∀ r : Row, op &&& r.mask ≠ r.bits)

/-- A word is unknown exactly if it lies in one of the six groups of the unknown-opcode table.
The table of R76, read off the word's number; strictness is the spec's decision D15 (log 27). -/
def Obligations.UnknownWordsAreTheSixGroups : Prop :=
  ∀ op : Word, decode op = none ↔
    (op.toNat / 4096 = 0 ∧ op.toNat ≠ 0x00E0 ∧ op.toNat ≠ 0x00EE) ∨
    (op.toNat / 4096 = 5 ∧ op.toNat % 16 ≠ 0) ∨
    (op.toNat / 4096 = 8 ∧ op.toNat % 16 ∈ [8, 9, 10, 11, 12, 13, 15]) ∨
    (op.toNat / 4096 = 9 ∧ op.toNat % 16 ≠ 0) ∨
    (op.toNat / 4096 = 14 ∧ op.toNat % 256 ∉ [0x9E, 0xA1]) ∨
    (op.toNat / 4096 = 15 ∧
      op.toNat % 256 ∉ [0x07, 0x0A, 0x15, 0x18, 0x1E, 0x29, 0x33, 0x55, 0x65])

/-- The assembler rejects numbers that do not fit, and else gives match value plus operands.
The recipe of R79; the assembler itself is the spec's decision D30 (log 25). -/
def Obligations.AssemblerFitsOrRejects : Prop :=
  ∀ (r : Row) (o : RawOperands),
    (o.fit r.format = false → assemble r o = none) ∧
    (o.fit r.format = true → ∃ i, assemble r o = some i ∧ i.row = r ∧
      (encode i).toNat = r.bits.toNat + operandValue o r.format)

/-- A step runs the instruction that the two big-endian bytes at pc decode to, and adds nothing.
Phases 1 to 3 of R90, the fetch of R91. -/
def Obligations.StepRunsTheDecodedInstruction : Prop :=
  ∀ (s : State) (op : Word) (i : Instr), s.pc.toNat + 1 < 4095 →
    op.toNat = (s.byteAt Config.hw s.pc.toNat).toNat * 256 +
      (s.byteAt Config.hw (s.pc.toNat + 1)).toNat →
    decode op = some i → step s = exec i s

/-- A step whose two bytes do not both exist is FetchOutOfBounds of pc and changes nothing.
R172. The exact bound is the spec's decision D12 (log 18), the unchanged state D14 (log 19). -/
def Obligations.FetchBeyondMemoryFaults : Prop :=
  ∀ s : State, 4095 ≤ s.pc.toNat + 1 → step s = .fault (.fetchOutOfBounds s.pc) ∧
    transact .step s = (s, .fault (.fetchOutOfBounds s.pc))

/-- A step that fetches an unknown word is UnknownOpcode of that word and changes nothing.
R171. The unchanged state is the spec's decision D14 (log 19). -/
def Obligations.UnknownOpcodeFaults : Prop :=
  ∀ (s : State) (op : Word), s.pc.toNat + 1 < 4095 →
    op.toNat = (s.byteAt Config.hw s.pc.toNat).toNat * 256 +
      (s.byteAt Config.hw (s.pc.toNat + 1)).toNat →
    decode op = none → step s = .fault (.unknownOpcode op) ∧
      transact .step s = (s, .fault (.unknownOpcode op))

/-- A store into the next instruction's bytes is what the next fetch reads.
Self-modifying code, R61 (an inference the spec marks as derived). -/
def Obligations.StoreIsSeenByTheNextFetch : Prop :=
  ∀ (s : State) (x : Reg), 1 ≤ x.toNat → s.index.toNat = s.pc.toNat + 2 →
    s.index.toNat + x.toNat < 4095 →
    ∃ t, exec (.storeRegs x) s = .next t ∧
      fetch Config.hw t = .ok (wordOfBytes (s.reg 0) (s.reg 1))

/-- Every completed step ticks both timers once, after Fx15 and Fx18 wrote; a waiting one does not.
The tick of R94. That a Waiting step does not tick is the spec's decision D26 (log 19). -/
def Obligations.TimersTickOncePerCompletedCycle : Prop :=
  ∀ s t : State, step s = .next t →
    (t.waiting = false → ∃ i, fetched Config.hw s = some i ∧
      (∀ x, i = .ldDtVx x → TickedFrom (s.reg x) s.st s t) ∧
      (∀ x, i = .ldStVx x → TickedFrom s.dt (s.reg x) s t) ∧
      ((∀ x, i ≠ .ldDtVx x ∧ i ≠ .ldStVx x) → TickedFrom s.dt s.st s t)) ∧
    (t.waiting = true → t.dt = s.dt ∧ t.st = s.st ∧ t.beeps = s.beeps)

/-- A step waits exactly on Fx0A with no key pressed, changing nothing else, and Step replies Waiting or Done with its beep.
R97 and R163, the replies of R10 and the beep of R94. That a Waiting step changes only waiting, timers included, is the spec's decision D26 (log 19), and that Fx18 beeps in its own cycle an inference the spec marks as derived. -/
def Obligations.WaitingComesOnlyFromTheKeyWait : Prop :=
  ∀ s t : State, step s = .next t →
    (t.waiting = true ↔
      ∃ x, fetched Config.hw s = some (.ldVxK x) ∧ ∀ k, s.key k = false) ∧
    (t.waiting = true → t = s.setWaiting true ∧ transact .step s = (t, .waiting)) ∧
    (t.waiting = false → ∃ i, fetched Config.hw s = some i ∧
      (∀ x, i = .ldStVx x → transact .step s = (t, .done (decide (s.reg x = 2)))) ∧
      ((∀ x, i ≠ .ldStVx x) → transact .step s = (t, .done (decide (s.st = 2)))))

/-- A step does the same whether waiting is 0 or 1.
R31: nothing in the instruction set reads waiting (an inference the spec marks as derived). -/
def Obligations.WaitingIsNeverRead : Prop :=
  ∀ (s : State) (b : Bool), step (s.setWaiting b) = step s

/-- RedrawPending and ClearRedraw do what they say; no step clears redraw and none depends on it.
R156. -/
def Obligations.RedrawIsClearedAndReadByTheHostOnly : Prop :=
  (∀ s, transact .redrawPending s = (s, .bit s.redraw)) ∧
  (∀ s, transact .clearRedraw s = ({ s with redraw := false }, .none)) ∧
  (∀ s t, step s = .next t → s.redraw = true → t.redraw = true) ∧
  (∀ s b f, step s = .fault f → step (s.setRedraw b) = .fault f) ∧
  (∀ s b t, step s = .next t → ∃ u, step (s.setRedraw b) = .next u ∧ u.setRedraw t.redraw = t)

/-- Only KeyUpdate changes keys, only Ex9E, ExA1 and Fx0A depend on them, none is pressed at reset.
R30. -/
def Obligations.KeysAreWrittenByTheHostAndReadByThree : Prop :=
  (∀ k, State.reset.key k = false) ∧
  (∀ a s, (∀ k p, a ≠ .keyUpdate k p) → (transact a s).1.keys = s.keys) ∧
  (∀ k p s q, 0 ≤ k → k < 16 →
    (transact (.keyUpdate k p) s).1.key q = if (q.toNat : Int) = k then p else s.key q) ∧
  (∀ i s k b, (∀ x, i ≠ .skp x ∧ i ≠ .sknp x ∧ i ≠ .ldVxK x) →
    (∀ f, exec i s = .fault f → exec i (s.setKey k b) = .fault f) ∧
    (∀ t, exec i s = .next t → exec i (s.setKey k b) = .next (t.setKey k b)))

/-- I, the stack, memory, the framebuffer and redraw change only by the instructions that write them.
The writer lists of R22, R24, R27, R28 and R29, over all instructions. -/
def Obligations.ItemsChangeOnlyByTheirWriters : Prop :=
  ∀ (i : Instr) (s t : State), exec i s = .next t →
    (t.index ≠ s.index → (∃ n, i = .ldI n) ∨
      ∃ x, i = .addI x ∨ i = .ldF x ∨ i = .storeRegs x ∨ i = .loadRegs x) ∧
    (t.stack ≠ s.stack → i = .ret ∨ ∃ n, i = .call n) ∧
    ((∃ a, t.byteAt Config.hw a ≠ s.byteAt Config.hw a) →
      ∃ x, i = .ldB x ∨ i = .storeRegs x) ∧
    (t.fb ≠ s.fb ∨ t.redraw ≠ s.redraw → i = .cls ∨ ∃ x y n, i = .drw x y n)

/-- VF changes only by the seven flag writers, which leave 0 or 1, or as an ordinary destination.
The table of R21. That the flag survives with x = 15 is the spec's decision D16 (log 16). -/
def Obligations.FlagRegisterChangesOnlyByItsWriters : Prop :=
  ∀ (i : Instr) (s t : State), exec i s = .next t →
    ((∃ x y, i = .addReg x y ∨ i = .subReg x y ∨ i = .shr x y ∨ i = .subn x y ∨ i = .shl x y) ∨
      (∃ x, i = .addI x) ∨ (∃ x y n, i = .drw x y n) → t.reg 0xF = 0 ∨ t.reg 0xF = 1) ∧
    (t.reg 0xF ≠ s.reg 0xF →
      (∃ x y, i = .addReg x y ∨ i = .subReg x y ∨ i = .shr x y ∨ i = .subn x y ∨ i = .shl x y) ∨
      (∃ x, i = .addI x) ∨ (∃ x y n, i = .drw x y n) ∨
      (∃ kk, i = .ldImm 0xF kk ∨ i = .addImm 0xF kk ∨ i = .rnd 0xF kk) ∨
      (∃ y, i = .ldReg 0xF y ∨ i = .orReg 0xF y ∨ i = .andReg 0xF y ∨ i = .xorReg 0xF y) ∨
      i = .ldVxDt 0xF ∨ i = .ldVxK 0xF ∨ i = .loadRegs 0xF)

/-- After construction everything is 0 or empty, and memory holds the glyph bytes and zeros.
The table of R36. pc = 0 is the spec's decision D10 (log 21), waiting = 0 is D25 (log 20). -/
def Obligations.ResetState : Prop :=
  (∀ r, State.reset.reg r = 0) ∧ State.reset.index = 0 ∧ State.reset.pc = 0 ∧
  State.reset.stack = [] ∧ State.reset.dt = 0 ∧ State.reset.st = 0 ∧
  State.reset.redraw = false ∧ State.reset.waiting = false ∧ (∀ k, State.reset.key k = false) ∧
  (∀ c px py, State.reset.pixel c px py = false) ∧
  (∀ c : Config, c.wellFormed = true →
    (∀ a b, a < 80 → c.glyphs[a]? = some b → State.reset.byteAt c a = b) ∧
    (∀ a, 80 ≤ a → State.reset.byteAt c a = 0))

/-- The invariant holds after construction, under every configuration.
R36 against the invariant Inv (Safety.lean). -/
def Obligations.ResetMeetsTheInvariant : Prop :=
  ∀ c : Config, Inv c State.reset

/-- Every step from a state that meets the invariant gives one that meets it.
R22, R23, R24, R31, the bound of R100; the canonical forms are the model's (logs 6 and 7). -/
def Obligations.StepKeepsTheInvariant : Prop :=
  ∀ s t : State, Inv Config.hw s → step s = .next t → Inv Config.hw t

/-- Every transaction of the host keeps the invariant, a failing one included.
R189: what the host may do at any point between cycles. -/
def Obligations.TransactionsKeepTheInvariant : Prop :=
  ∀ (a : Transaction) (s : State), Inv Config.hw s → Inv Config.hw (transact a s).1

/-- Every state the host can bring the machine to from construction meets the invariant.
R189 and R200 together. -/
def Obligations.ReachableStatesMeetTheInvariant : Prop :=
  ∀ s : State, Reachable s → Inv Config.hw s

/-- Each fault of a step has exactly its cause and reports its info, in the order of the phases.
The table of R170 and the order of R178. Bounds and reported values are the spec's decisions D12, D13 (log 18), D7, D8 (log 8). -/
def Obligations.FaultsHaveTheirCauses : Prop :=
  ∀ (s : State) (f : Fault), step s = .fault f →
    match f with
    | .fetchOutOfBounds p => p = s.pc ∧ 4095 ≤ s.pc.toNat + 1
    | .unknownOpcode op => fetch Config.hw s = .ok op ∧ decode op = none
    | .stackOverflow p =>
      p = s.pc ∧ (∃ n, fetched Config.hw s = some (.call n)) ∧ 16 ≤ s.stack.length
    | .stackUnderflow p => p = s.pc ∧ fetched Config.hw s = some .ret ∧ s.stack = []
    | .memOutOfBounds a =>
      a = max s.index.toNat 4095 ∧
      ((∃ x, fetched Config.hw s = some (.ldB x) ∧ 4095 ≤ s.index.toNat + 2) ∨
       (∃ x, (fetched Config.hw s = some (.storeRegs x) ∨
          fetched Config.hw s = some (.loadRegs x)) ∧ 4095 ≤ s.index.toNat + x.toNat) ∨
       (∃ x y n, fetched Config.hw s = some (.drw x y n) ∧ n ≠ 0 ∧
          4095 ≤ s.index.toNat + n.toNat - 1))
    | .spriteOutOfFrame _ => False

/-- A step always answers a next state or a fault: no instruction is refused.
The outcomes of R10. -/
def Obligations.StepCompletesOrFaults : Prop :=
  ∀ s : State, (∃ t, step s = .next t) ∨ ∃ f, step s = .fault f

/-- 1nnn: pc becomes nnn, nothing else changes but the tick.
R101. That the step after a jump to 0xFFE or 0xFFF faults is the spec's decisions D12 (log 18) and D1 (log 1). -/
def Obligations.JumpSetsThePc : Prop :=
  ∀ (nnn : Addr12) (s : State), encode (.jp nnn) = 0x1000#16 ||| nnn.setWidth 16 ∧
    ∃ t, exec (.jp nnn) s = .next t ∧ DoneChanging Config.hw [] [] (nnn.setWidth 16) s t ∧
      (4095 ≤ nnn.toNat + 1 → step t = .fault (.fetchOutOfBounds (nnn.setWidth 16)))

/-- Bnnn: pc becomes nnn + V[0] without mask or wrap, nothing else changes but the tick.
R107. That a sum above 4095 does not wrap is the spec's decision D9 (log 10), the fetch bound D12 (log 18) and D1 (log 1). -/
def Obligations.ComputedJumpAddsV0 : Prop :=
  ∀ (nnn : Addr12) (s : State), encode (.jpV0 nnn) = 0xB000#16 ||| nnn.setWidth 16 ∧
    ∃ t, exec (.jpV0 nnn) s = .next t ∧ t.pc.toNat = nnn.toNat + (s.reg 0).toNat ∧
      DoneChanging Config.hw [] [] t.pc s t ∧
      (4095 ≤ nnn.toNat + (s.reg 0).toNat + 1 → step t = .fault (.fetchOutOfBounds t.pc))

/-- 2nnn pushes its own address and goes to nnn; on a full stack it is StackOverflow.
R102. The bound and its fault are the spec's decision D7 (log 8). -/
def Obligations.CallPushesOrOverflows : Prop :=
  ∀ (nnn : Addr12) (s : State), encode (.call nnn) = 0x2000#16 ||| nnn.setWidth 16 ∧
    (s.stack.length < 16 → ∃ t, exec (.call nnn) s = .next t ∧ t.stack = s.pc :: s.stack ∧
      DoneChanging Config.hw [] [.stack] (nnn.setWidth 16) s t) ∧
    (16 ≤ s.stack.length → exec (.call nnn) s = .fault (.stackOverflow s.pc)) ∧
    (∀ c : Config, c.stackDepth ≤ s.stack.length → call c nnn s = .fault (.stackOverflow s.pc))

/-- 00EE goes to the popped address plus 2; on an empty stack it is StackUnderflow.
R100. The fault is the spec's decision D8 (log 8). -/
def Obligations.ReturnPopsOrUnderflows : Prop :=
  encode .ret = 0x00EE#16 ∧
  (∀ (s : State) (w : Word) (l : List Word), s.stack = w :: l →
    ∃ t, exec .ret s = .next t ∧ t.stack = l ∧
      DoneChanging Config.hw [] [.stack] (w + 2) s t) ∧
  (∀ s : State, s.stack = [] → exec .ret s = .fault (.stackUnderflow s.pc))

/-- A call and then a return end after the call with the stack as before.
The source's round-trip property, R108. The bound 16 is the spec's decision D7 (log 8). -/
def Obligations.CallThenReturnRestores : Prop :=
  ∀ (nnn : Addr12) (s : State), s.stack.length < 16 →
    ∃ t u, exec (.call nnn) s = .next t ∧ exec .ret t = .next u ∧
      u.pc = s.pc + 2 ∧ u.stack = s.stack ∧ OnlyChanged Config.hw [] [] s u ∧
      u.dt.toNat = s.dt.toNat - 2 ∧ u.st.toNat = s.st.toNat - 2

/-- 3xkk skips if V[x] = kk, 4xkk if V[x] differs; nothing else changes but the tick.
R103 and R104. -/
def Obligations.SkipsOnAnImmediate : Prop :=
  ∀ (x : Reg) (kk : Byte) (s : State),
    encode (.seImm x kk) = 0x3000#16 ||| (x.setWidth 16 <<< 8) ||| kk.setWidth 16 ∧
    encode (.sneImm x kk) = 0x4000#16 ||| (x.setWidth 16 <<< 8) ||| kk.setWidth 16 ∧
    (∃ t, exec (.seImm x kk) s = .next t ∧
      DoneChanging Config.hw [] [] (if s.reg x = kk then s.pc + 4 else s.pc + 2) s t) ∧
    (∃ t, exec (.sneImm x kk) s = .next t ∧
      DoneChanging Config.hw [] [] (if s.reg x = kk then s.pc + 2 else s.pc + 4) s t)

/-- 5xy0 skips if V[x] = V[y], 9xy0 if they differ; nothing else changes but the tick.
R105 and R106. That a word with a low digit not 0 is unknown is the spec's decision D15 (log 27). -/
def Obligations.SkipsOnRegisters : Prop :=
  (∀ (x y : Reg) (s : State),
    encode (.seReg x y) = 0x5000#16 ||| (x.setWidth 16 <<< 8) ||| (y.setWidth 16 <<< 4) ∧
    encode (.sneReg x y) = 0x9000#16 ||| (x.setWidth 16 <<< 8) ||| (y.setWidth 16 <<< 4) ∧
    (∃ t, exec (.seReg x y) s = .next t ∧
      DoneChanging Config.hw [] [] (if s.reg x = s.reg y then s.pc + 4 else s.pc + 2) s t) ∧
    (∃ t, exec (.sneReg x y) s = .next t ∧
      DoneChanging Config.hw [] [] (if s.reg x = s.reg y then s.pc + 2 else s.pc + 4) s t)) ∧
  (∀ op : Word, op.toNat / 4096 = 5 ∨ op.toNat / 4096 = 9 → op.toNat % 16 ≠ 0 → decode op = none)

/-- 6xkk loads kk and 8xy0 copies V[y] into V[x]; nothing else changes but the tick.
R122 and R124. -/
def Obligations.RegisterLoads : Prop :=
  ∀ (x y : Reg) (kk : Byte) (s : State),
    encode (.ldImm x kk) = 0x6000#16 ||| (x.setWidth 16 <<< 8) ||| kk.setWidth 16 ∧
    encode (.ldReg x y) = 0x8000#16 ||| (x.setWidth 16 <<< 8) ||| (y.setWidth 16 <<< 4) ∧
    (∃ t, exec (.ldImm x kk) s = .next t ∧ t.reg x = kk ∧
      DoneChanging Config.hw [x] [] (s.pc + 2) s t) ∧
    (∃ t, exec (.ldReg x y) s = .next t ∧ t.reg x = s.reg y ∧
      DoneChanging Config.hw [x] [] (s.pc + 2) s t)

/-- 7xkk: V[x] becomes V[x] + kk mod 256 with no flag; nothing else changes but the tick.
R123. -/
def Obligations.AddImmediateWraps : Prop :=
  ∀ (x : Reg) (kk : Byte) (s : State),
    encode (.addImm x kk) = 0x7000#16 ||| (x.setWidth 16 <<< 8) ||| kk.setWidth 16 ∧
    ∃ t, exec (.addImm x kk) s = .next t ∧
      (t.reg x).toNat = ((s.reg x).toNat + kk.toNat) % 256 ∧
      DoneChanging Config.hw [x] [] (s.pc + 2) s t

/-- 8xy1, 8xy2, 8xy3: V[x] becomes the bitwise or, and, exclusive or; VF keeps its value.
R125, R126, R127. -/
def Obligations.LogicIsBitwise : Prop :=
  ∀ (x y : Reg) (s : State),
    encode (.orReg x y) = 0x8001#16 ||| (x.setWidth 16 <<< 8) ||| (y.setWidth 16 <<< 4) ∧
    encode (.andReg x y) = 0x8002#16 ||| (x.setWidth 16 <<< 8) ||| (y.setWidth 16 <<< 4) ∧
    encode (.xorReg x y) = 0x8003#16 ||| (x.setWidth 16 <<< 8) ||| (y.setWidth 16 <<< 4) ∧
    (∃ t, exec (.orReg x y) s = .next t ∧
      (∀ k, (t.reg x).getLsbD k = ((s.reg x).getLsbD k || (s.reg y).getLsbD k)) ∧
      DoneChanging Config.hw [x] [] (s.pc + 2) s t) ∧
    (∃ t, exec (.andReg x y) s = .next t ∧
      (∀ k, (t.reg x).getLsbD k = ((s.reg x).getLsbD k && (s.reg y).getLsbD k)) ∧
      DoneChanging Config.hw [x] [] (s.pc + 2) s t) ∧
    (∃ t, exec (.xorReg x y) s = .next t ∧
      (∀ k, (t.reg x).getLsbD k = ((s.reg x).getLsbD k ^^ (s.reg y).getLsbD k)) ∧
      DoneChanging Config.hw [x] [] (s.pc + 2) s t)

/-- 8xy4: V[x] becomes the sum mod 256 and VF the carry, written last.
R128 and R121. That VF ends as the flag with x = 15 is the spec's decision D16 (log 16). -/
def Obligations.AddRegistersSetsCarry : Prop :=
  ∀ (x y : Reg) (s : State),
    encode (.addReg x y) = 0x8004#16 ||| (x.setWidth 16 <<< 8) ||| (y.setWidth 16 <<< 4) ∧
    ∃ t, exec (.addReg x y) s = .next t ∧
      (x ≠ 0xF → (t.reg x).toNat = ((s.reg x).toNat + (s.reg y).toNat) % 256) ∧
      t.reg 0xF = (if 255 < (s.reg x).toNat + (s.reg y).toNat then 1 else 0) ∧
      DoneChanging Config.hw [x, 0xF] [] (s.pc + 2) s t

/-- 8xy5 and 8xy7: the difference mod 256, and VF 1 exactly where nothing is borrowed.
R129 and R131. Equal operands are the spec's decision D18 and conflict C1, the 0 is D17 (log 17), the order of writes D16 (log 16). -/
def Obligations.SubtractionsSetNoBorrow : Prop :=
  ∀ (x y : Reg) (s : State),
    encode (.subReg x y) = 0x8005#16 ||| (x.setWidth 16 <<< 8) ||| (y.setWidth 16 <<< 4) ∧
    encode (.subn x y) = 0x8007#16 ||| (x.setWidth 16 <<< 8) ||| (y.setWidth 16 <<< 4) ∧
    (∃ t, exec (.subReg x y) s = .next t ∧
      (x ≠ 0xF → ((t.reg x).toNat : Int) = ((s.reg x).toNat - (s.reg y).toNat : Int) % 256) ∧
      t.reg 0xF = (if (s.reg y).toNat ≤ (s.reg x).toNat then 1 else 0) ∧
      DoneChanging Config.hw [x, 0xF] [] (s.pc + 2) s t) ∧
    (∃ t, exec (.subn x y) s = .next t ∧
      (x ≠ 0xF → ((t.reg x).toNat : Int) = ((s.reg y).toNat - (s.reg x).toNat : Int) % 256) ∧
      t.reg 0xF = (if (s.reg x).toNat ≤ (s.reg y).toNat then 1 else 0) ∧
      DoneChanging Config.hw [x, 0xF] [] (s.pc + 2) s t)

/-- 8xy6 and 8xyE shift V[x] by one and VF takes the bit displaced; y is ignored.
R130 and R132. That VF ends as the flag with x = 15 is the spec's decision D16 (log 16). -/
def Obligations.ShiftsMoveOneBitOut : Prop :=
  ∀ (x y : Reg) (s : State),
    encode (.shr x y) = 0x8006#16 ||| (x.setWidth 16 <<< 8) ||| (y.setWidth 16 <<< 4) ∧
    encode (.shl x y) = 0x800E#16 ||| (x.setWidth 16 <<< 8) ||| (y.setWidth 16 <<< 4) ∧
    (∀ z, exec (.shr x z) s = exec (.shr x y) s ∧ exec (.shl x z) s = exec (.shl x y) s) ∧
    (∃ t, exec (.shr x y) s = .next t ∧
      (x ≠ 0xF → (t.reg x).toNat = (s.reg x).toNat / 2) ∧
      (t.reg 0xF).toNat = (s.reg x).toNat % 2 ∧
      DoneChanging Config.hw [x, 0xF] [] (s.pc + 2) s t) ∧
    (∃ t, exec (.shl x y) s = .next t ∧
      (x ≠ 0xF → (t.reg x).toNat = (s.reg x).toNat * 2 % 256) ∧
      (t.reg 0xF).toNat = (s.reg x).toNat / 128 ∧
      DoneChanging Config.hw [x, 0xF] [] (s.pc + 2) s t)

/-- Cxkk: V[x] becomes the drawn byte and kk; kk = 0xFF gives the byte, kk = 0 gives 0; nothing else changes.
R133. The byte is a free value under no law, the spec's decision D29; Config.rand8 at draws is the model's name for it (log 2). -/
def Obligations.RandomIsMaskedByKk : Prop :=
  ∀ (x : Reg) (kk : Byte) (s : State),
    encode (.rnd x kk) = 0xC000#16 ||| (x.setWidth 16 <<< 8) ||| kk.setWidth 16 ∧
    ∃ t, exec (.rnd x kk) s = .next t ∧ t.reg x = Config.rand8 s.draws &&& kk ∧
      (kk = 0xFF → t.reg x = Config.rand8 s.draws) ∧ (kk = 0 → t.reg x = 0) ∧
      (∀ k, kk.getLsbD k = false → (t.reg x).getLsbD k = false) ∧
      t.draws = s.draws + 1 ∧ DoneChanging Config.hw [x] [.draws] (s.pc + 2) s t

/-- Annn: I becomes nnn, whether or not that address exists; nothing else changes but the tick.
R141. -/
def Obligations.LoadIndexImmediate : Prop :=
  ∀ (nnn : Addr12) (s : State), encode (.ldI nnn) = 0xA000#16 ||| nnn.setWidth 16 ∧
    ∃ t, exec (.ldI nnn) s = .next t ∧ t.index.toNat = nnn.toNat ∧
      DoneChanging Config.hw [] [.index] (s.pc + 2) s t

/-- Fx1E: I becomes I + V[x] mod 4096 and VF 1 exactly if the sum exceeds 0x0FFF.
R142. The 12-bit limit is the spec's decision D3, the 0 D17, the stored mask D19 (log 17), the order with x = 15 D16 (log 16). -/
def Obligations.AddToIndexSetsOverflow : Prop :=
  ∀ (x : Reg) (s : State), encode (.addI x) = 0xF01E#16 ||| (x.setWidth 16 <<< 8) ∧
    ∃ t, exec (.addI x) s = .next t ∧
      t.index.toNat = (s.index.toNat + (s.reg x).toNat) % 4096 ∧
      t.reg 0xF = (if 0x0FFF < s.index.toNat + (s.reg x).toNat then 1 else 0) ∧
      DoneChanging Config.hw [0xF] [.index] (s.pc + 2) s t

/-- Fx29: I becomes 5 times the whole value of V[x]; nothing else changes but the tick.
R143. -/
def Obligations.GlyphIndexIsFiveTimes : Prop :=
  ∀ (x : Reg) (s : State), encode (.ldF x) = 0xF029#16 ||| (x.setWidth 16 <<< 8) ∧
    ∃ t, exec (.ldF x) s = .next t ∧ t.index.toNat = 5 * (s.reg x).toNat ∧
      t.index.toNat ≤ 1275 ∧ DoneChanging Config.hw [] [.index] (s.pc + 2) s t

/-- Fx33 stores hundreds, tens, ones of V[x] at I, I + 1, I + 2 and leaves every other byte.
R144. That an access past the end faults instead is the spec's decision D13 (log 18). -/
def Obligations.StoreDigitsWritesThreeBytes : Prop :=
  ∀ (x : Reg) (s : State), encode (.ldB x) = 0xF033#16 ||| (x.setWidth 16 <<< 8) ∧
    (dataBase s + 2 < 4095 → ∃ t, exec (.ldB x) s = .next t ∧
      (t.byteAt Config.hw (dataBase s)).toNat = (s.reg x).toNat / 100 ∧
      (t.byteAt Config.hw (dataBase s + 1)).toNat = (s.reg x).toNat / 10 % 10 ∧
      (t.byteAt Config.hw (dataBase s + 2)).toNat = (s.reg x).toNat % 10 ∧
      (∀ a, a < dataBase s ∨ dataBase s + 2 < a →
        t.byteAt Config.hw a = s.byteAt Config.hw a) ∧
      DoneChanging Config.hw [] [.memory] (s.pc + 2) s t)

/-- Fx55 stores V[0..x] from I upward, leaves every other byte, and I advances by x + 1.
R145. That an access past the end faults instead is the spec's decision D13 (log 18). -/
def Obligations.StoreBlockWritesRegisters : Prop :=
  ∀ (x : Reg) (s : State), encode (.storeRegs x) = 0xF055#16 ||| (x.setWidth 16 <<< 8) ∧
    (dataBase s + x.toNat < 4095 → ∃ t, exec (.storeRegs x) s = .next t ∧
      (∀ r : Reg, r.toNat ≤ x.toNat →
        t.byteAt Config.hw (dataBase s + r.toNat) = s.reg r) ∧
      (∀ a, a < dataBase s ∨ dataBase s + x.toNat < a →
        t.byteAt Config.hw a = s.byteAt Config.hw a) ∧
      t.index.toNat = s.index.toNat + x.toNat + 1 ∧
      DoneChanging Config.hw [] [.memory, .index] (s.pc + 2) s t)

/-- Fx65 loads V[0..x] from I upward, leaves the other registers and memory, I advances by x + 1.
R146. That an access past the end faults instead is the spec's decision D13 (log 18). -/
def Obligations.LoadBlockReadsRegisters : Prop :=
  ∀ (x : Reg) (s : State), encode (.loadRegs x) = 0xF065#16 ||| (x.setWidth 16 <<< 8) ∧
    (dataBase s + x.toNat < 4095 → ∃ t, exec (.loadRegs x) s = .next t ∧
      (∀ r : Reg, r.toNat ≤ x.toNat →
        t.reg r = s.byteAt Config.hw (dataBase s + r.toNat)) ∧
      (∀ r : Reg, x.toNat < r.toNat → t.reg r = s.reg r) ∧
      t.index.toNat = s.index.toNat + x.toNat + 1 ∧
      DoneChanging Config.hw allRegs [.index] (s.pc + 2) s t)

/-- Fx33, Fx55, Fx65 past the end of memory are MemOutOfBounds of the lowest missing address.
R140 and R173: the spec's decision D13 (log 18). -/
def Obligations.BlockAccessPastTheEndFaults : Prop :=
  ∀ (x : Reg) (s : State),
    (4095 ≤ dataBase s + 2 → exec (.ldB x) s = .fault (.memOutOfBounds (max (dataBase s) 4095))) ∧
    (4095 ≤ dataBase s + x.toNat →
      exec (.storeRegs x) s = .fault (.memOutOfBounds (max (dataBase s) 4095)) ∧
      exec (.loadRegs x) s = .fault (.memOutOfBounds (max (dataBase s) 4095))) ∧
    (∀ c : Config, c.memSize ≤ dataBase s + 2 →
      storeDigits c x s = .fault (.memOutOfBounds (max (dataBase s) c.memSize))) ∧
    (∀ c : Config, c.memSize ≤ dataBase s + x.toNat →
      storeBlock c x s = .fault (.memOutOfBounds (max (dataBase s) c.memSize)) ∧
      loadBlock c x s = .fault (.memOutOfBounds (max (dataBase s) c.memSize)))

/-- Fx55, then Fx65 with I reset, restores V[0..x]; without the reset it reads the next bytes.
The source's round-trip property, R147. -/
def Obligations.SaveThenRestoreRegisters : Prop :=
  ∀ (x : Reg) (s t : State), exec (.storeRegs x) s = .next t →
    (∀ v : State, (∀ a, v.byteAt Config.hw a = t.byteAt Config.hw a) → v.index = s.index →
      ∃ u, exec (.loadRegs x) v = .next u ∧ (∀ r : Reg, r.toNat ≤ x.toNat → u.reg r = s.reg r) ∧
        u.index.toNat = s.index.toNat + x.toNat + 1) ∧
    (s.index.toNat + 2 * x.toNat + 1 < 4095 →
      ∃ u, exec (.loadRegs x) t = .next u ∧
        (∀ r : Reg, r.toNat ≤ x.toNat →
          u.reg r = t.byteAt Config.hw (s.index.toNat + x.toNat + 1 + r.toNat)) ∧
        u.index.toNat = s.index.toNat + 2 * x.toNat + 2)

/-- 00E0: every framebuffer cell 0 and redraw 1; nothing else changes but the tick.
R150. That redraw is set also when no cell changes is the spec's decision D22 (log 26). -/
def Obligations.ClearScreenClearsAndSetsRedraw : Prop :=
  encode .cls = 0x00E0#16 ∧
  ∀ s : State, ∃ t, exec .cls s = .next t ∧ (∀ px py, t.pixel Config.hw px py = false) ∧
    t.redraw = true ∧ DoneChanging Config.hw [] [.framebuffer, .redraw] (s.pc + 2) s t

/-- Dxyn xors the in-frame set bits of the sprite, sets VF to the collision and redraw to 1.
R151 to R153 under this hardware's policy. Clipping is the spec's decision D21 (log 14), the flag as an or over the draw D20 (log 15), VF last D16 (log 16), redraw always D22 (log 26). -/
def Obligations.DrawClippedSprite : Prop :=
  ∀ (x y : Reg) (n : Nibble) (s : State),
    encode (.drw x y n) =
      0xD000#16 ||| (x.setWidth 16 <<< 8) ||| (y.setWidth 16 <<< 4) ||| n.setWidth 16 ∧
    (n = 0 ∨ dataBase s + n.toNat ≤ 4095 → ∃ t, exec (.drw x y n) s = .next t ∧
      Composited Config.hw
        (SpriteCovers Config.hw s (dataBase s) n.toNat (s.reg x).toNat (s.reg y).toNat) s t ∧
      t.redraw = true ∧ DoneChanging Config.hw [0xF] [.framebuffer, .redraw] (s.pc + 2) s t)

/-- Under the policy wrap a draw xors every set bit with each coordinate reduced by the frame.
R153, wrap: an alternative the spec's decision D21 leaves open (log 14); the flag is D20 (log 15). -/
def Obligations.DrawWrappedSprite : Prop :=
  ∀ (c : Config) (x y : Reg) (n : Nibble) (s : State), c.wellFormed = true →
    c.oobPolicy = .wrap → n = 0 ∨ dataBase s + n.toNat ≤ c.memSize →
    ∃ t, drawSprite c x y n s = .next t ∧
      Composited c
        (SpriteWrapsOnto c s (dataBase s) n.toNat (s.reg x).toNat (s.reg y).toNat) s t ∧
      t.redraw = true ∧ DoneChanging c [0xF] [.framebuffer, .redraw] (s.pc + 2) s t

/-- A draw past memory is MemOutOfBounds under any policy; only then comes SpriteOutOfFrame.
R152 and R178. Checking all rows is the spec's decision D23 (log 26), the reported address D13 (log 18), the policy D21 (log 14). -/
def Obligations.DrawFaultsInOrder : Prop :=
  (∀ (c : Config) (x y : Reg) (n : Nibble) (s : State), n ≠ 0 → c.memSize < dataBase s + n.toNat →
    drawSprite c x y n s = .fault (.memOutOfBounds (max (dataBase s) c.memSize))) ∧
  (∀ (x y : Reg) (n : Nibble) (s : State), n ≠ 0 → 4095 < dataBase s + n.toNat →
    exec (.drw x y n) s = .fault (.memOutOfBounds (max (dataBase s) 4095))) ∧
  (∀ (c : Config) (x y : Reg) (n : Nibble) (s : State), c.oobPolicy = .fault →
    n = 0 ∨ dataBase s + n.toNat ≤ c.memSize →
    (∃ px py, SpriteCovers c s (dataBase s) n.toNat (s.reg x).toNat (s.reg y).toNat px py ∧
      (c.fbWidth ≤ px ∨ c.fbHeight ≤ py)) →
    drawSprite c x y n s = .fault (.spriteOutOfFrame s.pc))

/-- A draw whose set bits are all in frame does the same under clip, wrap and fault.
The last sentence of R153. -/
def Obligations.InFrameDrawsAgreeUnderAllPolicies : Prop :=
  ∀ (c : Config) (p q : OobPolicy) (x y : Reg) (n : Nibble) (s : State),
    (∀ px py, SpriteCovers c s (dataBase s) n.toNat (s.reg x).toNat (s.reg y).toNat px py →
      px < c.fbWidth ∧ py < c.fbHeight) →
    drawSprite { c with oobPolicy := p } x y n s = drawSprite { c with oobPolicy := q } x y n s

/-- Drawing the same sprite twice restores every cell; VF is 1 exactly if the first lit a cell.
The source's double-xor property, R154. The flag is the spec's decision D20 (log 15), clipping D21 (log 14), the frame of 64 by 32 D4 (log 1, PRESUMED). -/
def Obligations.DrawTwiceRestores : Prop :=
  ∀ (x y : Reg) (n : Nibble) (s t : State), x ≠ 0xF → y ≠ 0xF → exec (.drw x y n) s = .next t →
    ∃ u, exec (.drw x y n) t = .next u ∧
      (∀ px py, px < 64 → py < 32 → u.pixel Config.hw px py = s.pixel Config.hw px py) ∧
      (Display.wf Config.hw s.fb → u.fb = s.fb) ∧
      (u.reg 0xF = 1 ↔ ∃ px py, px < 64 ∧ py < 32 ∧
        SpriteCovers Config.hw s (dataBase s) n.toNat (s.reg x).toNat (s.reg y).toNat px py ∧
        s.pixel Config.hw px py = false) ∧
      (u.reg 0xF = 0 ∨ u.reg 0xF = 1)

/-- Ex9E skips if the key of V[x]'s low 4 bits is pressed, ExA1 if it is not.
R161 and R162. The low 4 bits are the spec's decision D24 (log 13). -/
def Obligations.KeySkips : Prop :=
  ∀ (x : Reg) (k : Nibble) (s : State), k.toNat = (s.reg x).toNat % 16 →
    encode (.skp x) = 0xE09E#16 ||| (x.setWidth 16 <<< 8) ∧
    encode (.sknp x) = 0xE0A1#16 ||| (x.setWidth 16 <<< 8) ∧
    (∃ t, exec (.skp x) s = .next t ∧
      DoneChanging Config.hw [] [] (if s.key k = true then s.pc + 4 else s.pc + 2) s t) ∧
    (∃ t, exec (.sknp x) s = .next t ∧
      DoneChanging Config.hw [] [] (if s.key k = true then s.pc + 2 else s.pc + 4) s t)

/-- Fx0A takes the lowest pressed key into V[x]; with none pressed it waits and changes nothing.
R163 and R97. Testing the level is the spec's decision D25 (log 20), no tick while waiting D26 (log 19). -/
def Obligations.KeyWaitCompletesOrWaits : Prop :=
  ∀ (x : Reg) (s : State), encode (.ldVxK x) = 0xF00A#16 ||| (x.setWidth 16 <<< 8) ∧
    (∀ k : Nibble, s.key k = true → (∀ j : Nibble, j.toNat < k.toNat → s.key j = false) →
      ∃ t, exec (.ldVxK x) s = .next t ∧ (t.reg x).toNat = k.toNat ∧
        DoneChanging Config.hw [x] [] (s.pc + 2) s t) ∧
    ((∀ k, s.key k = false) → exec (.ldVxK x) s = .next { s with waiting := true })

/-- Fx07: V[x] takes the delay timer's value before this cycle's tick.
R164. That the tick comes after the read is an inference the spec marks as derived from R94. -/
def Obligations.ReadDelayTimer : Prop :=
  ∀ (x : Reg) (s : State), encode (.ldVxDt x) = 0xF007#16 ||| (x.setWidth 16 <<< 8) ∧
    ∃ t, exec (.ldVxDt x) s = .next t ∧ t.reg x = s.dt ∧ t.dt.toNat = s.dt.toNat - 1 ∧
      DoneChanging Config.hw [x] [] (s.pc + 2) s t

/-- Fx15 and Fx18 write V[x] to DT and ST, and the same cycle's tick follows.
R165; of R166 the write and this cycle's tick, not its remark on later cycles. That Fx18 beeps in its own cycle is an inference the spec marks as derived in R94. -/
def Obligations.WriteTimers : Prop :=
  ∀ (x : Reg) (s : State),
    encode (.ldDtVx x) = 0xF015#16 ||| (x.setWidth 16 <<< 8) ∧
    encode (.ldStVx x) = 0xF018#16 ||| (x.setWidth 16 <<< 8) ∧
    (∃ t, exec (.ldDtVx x) s = .next t ∧ TickedFrom (s.reg x) s.st s t ∧
      t.pc = s.pc + 2 ∧ t.waiting = false ∧ OnlyChanged Config.hw [] [] s t) ∧
    (∃ t, exec (.ldStVx x) s = .next t ∧ TickedFrom s.dt (s.reg x) s t ∧
      t.pc = s.pc + 2 ∧ t.waiting = false ∧ OnlyChanged Config.hw [] [] s t)

/-- Load copies the image to 0x200, sets pc and clears waiting; a too long image changes nothing.
R202, R203, R37. pc's value is the spec's decision D10, what is kept and cleared D27 (log 21); the offset 0x200 is D2 (log 1, PRESUMED), and the 3583 bytes left above it D1 (log 1) with D2. -/
def Obligations.LoadCopiesTheImageOrChangesNothing : Prop :=
  ∀ (bytes : List Byte) (s : State),
    (bytes.length ≤ 3583 → ∃ t, transact (.load bytes) s = (t, .ok) ∧
      t.pc = 0x200 ∧ t.waiting = false ∧ t.dt = s.dt ∧ t.st = s.st ∧ t.beeps = s.beeps ∧
      (∀ k b, bytes[k]? = some b → t.byteAt Config.hw (0x200 + k) = b) ∧
      (∀ a, a < 0x200 ∨ 0x200 + bytes.length ≤ a →
        t.byteAt Config.hw a = s.byteAt Config.hw a) ∧
      OnlyChanged Config.hw [] [.memory] s t) ∧
    (3583 < bytes.length →
      transact (.load bytes) s = (s, .loadFailed (.tooLarge bytes.length)))

/-- KeyUpdate sets the one key and nothing else; an index outside 0 to 15 changes nothing.
R183. The refusal of a bad index is the spec's decision D33 (log 24). -/
def Obligations.KeyUpdateSetsOneKey : Prop :=
  ∀ (k : Int) (p : Bool) (s : State),
    (0 ≤ k ∧ k ≤ 15 → ∃ t, transact (.keyUpdate k p) s = (t, .none) ∧
      (∀ q : Nibble, t.key q = if (q.toNat : Int) = k then p else s.key q) ∧
      t = { s with keys := t.keys }) ∧
    (k < 0 ∨ 15 < k →
      transact (.keyUpdate k p) s = (s, .callerError .indexOutOfRange))

/-- FrameQuery of py * 64 + px reads that cell and changes nothing; outside 0 to 2047 it is refused.
R155. The row-major index is the spec's decision D5 (log 6), the refusal D33 (log 24), the frame of 64 by 32 D4 (log 1, PRESUMED). -/
def Obligations.FrameQueryReadsRowMajor : Prop :=
  ∀ s : State,
    (∀ px py : Nat, px < 64 → py < 32 →
      transact (.frameQuery (py * 64 + px)) s = (s, .bit (s.pixel Config.hw px py))) ∧
    (∀ i : Int, i < 0 ∨ 2047 < i →
      transact (.frameQuery i) s = (s, .callerError .indexOutOfRange))

/-- A run of Steps and other transactions ends in failure at its first fatal fault, and nothing else ends it, a jump to self neither.
R213, with the severities of R170 and R180: a run's end is the spec's decision D34 (log 28). -/
def Obligations.RunsEndAtTheFirstFatalFault : Prop :=
  (∀ (l : List Transaction) (s : State),
    (hostRun l s).state = runTransactions (l.take (hostRun l s).replies.length) s ∧
    (∀ (k : Nat) (a : Transaction) (r : Reply), l[k]? = some a → (hostRun l s).replies[k]? = some r →
      r = (transact a (runTransactions (l.take k) s)).2) ∧
    ((hostRun l s).failed = false → (hostRun l s).replies.length = l.length ∧
      ∀ r ∈ (hostRun l s).replies, r.severity ≠ some .fatal) ∧
    ((hostRun l s).failed = true → ∃ (front : List Reply) (r : Reply),
      (hostRun l s).replies = front ++ [r] ∧ r.severity = some .fatal ∧
      (∀ q ∈ front, q.severity ≠ some .fatal) ∧
      (hostRun l s).state = runTransactions (l.take front.length) s ∧
      ∀ rest, hostRun (l.take (front.length + 1) ++ rest) s = hostRun l s)) ∧
  (∀ (nnn : Addr12) (s : State) (n : Nat), fetched Config.hw s = some (.jp nnn) →
    nnn.setWidth 16 = s.pc → SafeRun (List.replicate n .step) s ∧
    ∃ t, (hostRun (List.replicate n .step) s).state = t ∧ t.pc = s.pc ∧
      t.dt.toNat = s.dt.toNat - n ∧ t.st.toNat = s.st.toNat - n ∧
      t.beeps = s.beeps + if 2 ≤ s.st.toNat ∧ s.st.toNat ≤ n + 1 then 1 else 0)
end

