-- ==== Sys2Proof/Laws/State.lean ====
section
/-! SUPPORT. What each update of the state leaves in each field: one lemma per field per update. -/

namespace Sys2Proof.Machine

/-! `setReg`. -/

@[simp] theorem State.setReg_v (s : State) (r : Reg) (b : Byte) : (s.setReg r b).v = s.v.set r.toNat b r.isLt := rfl
@[simp] theorem State.setReg_index (s : State) (r : Reg) (b : Byte) : (s.setReg r b).index = s.index := rfl
@[simp] theorem State.setReg_pc (s : State) (r : Reg) (b : Byte) : (s.setReg r b).pc = s.pc := rfl
@[simp] theorem State.setReg_stack (s : State) (r : Reg) (b : Byte) : (s.setReg r b).stack = s.stack := rfl
@[simp] theorem State.setReg_dt (s : State) (r : Reg) (b : Byte) : (s.setReg r b).dt = s.dt := rfl
@[simp] theorem State.setReg_st (s : State) (r : Reg) (b : Byte) : (s.setReg r b).st = s.st := rfl
@[simp] theorem State.setReg_mem (s : State) (r : Reg) (b : Byte) : (s.setReg r b).mem = s.mem := rfl
@[simp] theorem State.setReg_fb (s : State) (r : Reg) (b : Byte) : (s.setReg r b).fb = s.fb := rfl
@[simp] theorem State.setReg_redraw (s : State) (r : Reg) (b : Byte) : (s.setReg r b).redraw = s.redraw := rfl
@[simp] theorem State.setReg_keys (s : State) (r : Reg) (b : Byte) : (s.setReg r b).keys = s.keys := rfl
@[simp] theorem State.setReg_waiting (s : State) (r : Reg) (b : Byte) : (s.setReg r b).waiting = s.waiting := rfl
@[simp] theorem State.setReg_draws (s : State) (r : Reg) (b : Byte) : (s.setReg r b).draws = s.draws := rfl
@[simp] theorem State.setReg_beeps (s : State) (r : Reg) (b : Byte) : (s.setReg r b).beeps = s.beeps := rfl
@[simp] theorem State.setReg_key (s : State) (r : Reg) (b : Byte) (q : Nibble) : (s.setReg r b).key q = s.key q := rfl
@[simp] theorem State.setReg_byteAt (s : State) (r : Reg) (b : Byte) (c : Config) (a : Nat) : (s.setReg r b).byteAt c a = s.byteAt c a := rfl

/-! `setRegsUpTo`. -/

@[simp] theorem State.setRegsUpTo_v (s : State) (x : Reg) (f : Nat → Byte) : (s.setRegsUpTo x f).v = Vector.ofFn fun i => if i.val ≤ x.toNat then f i.val else s.v[i] := rfl
@[simp] theorem State.setRegsUpTo_index (s : State) (x : Reg) (f : Nat → Byte) : (s.setRegsUpTo x f).index = s.index := rfl
@[simp] theorem State.setRegsUpTo_pc (s : State) (x : Reg) (f : Nat → Byte) : (s.setRegsUpTo x f).pc = s.pc := rfl
@[simp] theorem State.setRegsUpTo_stack (s : State) (x : Reg) (f : Nat → Byte) : (s.setRegsUpTo x f).stack = s.stack := rfl
@[simp] theorem State.setRegsUpTo_dt (s : State) (x : Reg) (f : Nat → Byte) : (s.setRegsUpTo x f).dt = s.dt := rfl
@[simp] theorem State.setRegsUpTo_st (s : State) (x : Reg) (f : Nat → Byte) : (s.setRegsUpTo x f).st = s.st := rfl
@[simp] theorem State.setRegsUpTo_mem (s : State) (x : Reg) (f : Nat → Byte) : (s.setRegsUpTo x f).mem = s.mem := rfl
@[simp] theorem State.setRegsUpTo_fb (s : State) (x : Reg) (f : Nat → Byte) : (s.setRegsUpTo x f).fb = s.fb := rfl
@[simp] theorem State.setRegsUpTo_redraw (s : State) (x : Reg) (f : Nat → Byte) : (s.setRegsUpTo x f).redraw = s.redraw := rfl
@[simp] theorem State.setRegsUpTo_keys (s : State) (x : Reg) (f : Nat → Byte) : (s.setRegsUpTo x f).keys = s.keys := rfl
@[simp] theorem State.setRegsUpTo_waiting (s : State) (x : Reg) (f : Nat → Byte) : (s.setRegsUpTo x f).waiting = s.waiting := rfl
@[simp] theorem State.setRegsUpTo_draws (s : State) (x : Reg) (f : Nat → Byte) : (s.setRegsUpTo x f).draws = s.draws := rfl
@[simp] theorem State.setRegsUpTo_beeps (s : State) (x : Reg) (f : Nat → Byte) : (s.setRegsUpTo x f).beeps = s.beeps := rfl
@[simp] theorem State.setRegsUpTo_key (s : State) (x : Reg) (f : Nat → Byte) (q : Nibble) : (s.setRegsUpTo x f).key q = s.key q := rfl
@[simp] theorem State.setRegsUpTo_byteAt (s : State) (x : Reg) (f : Nat → Byte) (c : Config) (a : Nat) : (s.setRegsUpTo x f).byteAt c a = s.byteAt c a := rfl

/-! `setIndex`. -/

@[simp] theorem State.setIndex_v (s : State) (w : Word) : (s.setIndex w).v = s.v := rfl
@[simp] theorem State.setIndex_index (s : State) (w : Word) : (s.setIndex w).index = w &&& Config.addrMask := rfl
@[simp] theorem State.setIndex_pc (s : State) (w : Word) : (s.setIndex w).pc = s.pc := rfl
@[simp] theorem State.setIndex_stack (s : State) (w : Word) : (s.setIndex w).stack = s.stack := rfl
@[simp] theorem State.setIndex_dt (s : State) (w : Word) : (s.setIndex w).dt = s.dt := rfl
@[simp] theorem State.setIndex_st (s : State) (w : Word) : (s.setIndex w).st = s.st := rfl
@[simp] theorem State.setIndex_mem (s : State) (w : Word) : (s.setIndex w).mem = s.mem := rfl
@[simp] theorem State.setIndex_fb (s : State) (w : Word) : (s.setIndex w).fb = s.fb := rfl
@[simp] theorem State.setIndex_redraw (s : State) (w : Word) : (s.setIndex w).redraw = s.redraw := rfl
@[simp] theorem State.setIndex_keys (s : State) (w : Word) : (s.setIndex w).keys = s.keys := rfl
@[simp] theorem State.setIndex_waiting (s : State) (w : Word) : (s.setIndex w).waiting = s.waiting := rfl
@[simp] theorem State.setIndex_draws (s : State) (w : Word) : (s.setIndex w).draws = s.draws := rfl
@[simp] theorem State.setIndex_beeps (s : State) (w : Word) : (s.setIndex w).beeps = s.beeps := rfl
@[simp] theorem State.setIndex_reg (s : State) (w : Word) (q : Reg) : (s.setIndex w).reg q = s.reg q := rfl
@[simp] theorem State.setIndex_key (s : State) (w : Word) (q : Nibble) : (s.setIndex w).key q = s.key q := rfl
@[simp] theorem State.setIndex_byteAt (s : State) (w : Word) (c : Config) (a : Nat) : (s.setIndex w).byteAt c a = s.byteAt c a := rfl

/-! `setPc`. -/

@[simp] theorem State.setPc_v (s : State) (w : Word) : (s.setPc w).v = s.v := rfl
@[simp] theorem State.setPc_index (s : State) (w : Word) : (s.setPc w).index = s.index := rfl
@[simp] theorem State.setPc_pc (s : State) (w : Word) : (s.setPc w).pc = w := rfl
@[simp] theorem State.setPc_stack (s : State) (w : Word) : (s.setPc w).stack = s.stack := rfl
@[simp] theorem State.setPc_dt (s : State) (w : Word) : (s.setPc w).dt = s.dt := rfl
@[simp] theorem State.setPc_st (s : State) (w : Word) : (s.setPc w).st = s.st := rfl
@[simp] theorem State.setPc_mem (s : State) (w : Word) : (s.setPc w).mem = s.mem := rfl
@[simp] theorem State.setPc_fb (s : State) (w : Word) : (s.setPc w).fb = s.fb := rfl
@[simp] theorem State.setPc_redraw (s : State) (w : Word) : (s.setPc w).redraw = s.redraw := rfl
@[simp] theorem State.setPc_keys (s : State) (w : Word) : (s.setPc w).keys = s.keys := rfl
@[simp] theorem State.setPc_waiting (s : State) (w : Word) : (s.setPc w).waiting = s.waiting := rfl
@[simp] theorem State.setPc_draws (s : State) (w : Word) : (s.setPc w).draws = s.draws := rfl
@[simp] theorem State.setPc_beeps (s : State) (w : Word) : (s.setPc w).beeps = s.beeps := rfl
@[simp] theorem State.setPc_reg (s : State) (w : Word) (q : Reg) : (s.setPc w).reg q = s.reg q := rfl
@[simp] theorem State.setPc_key (s : State) (w : Word) (q : Nibble) : (s.setPc w).key q = s.key q := rfl
@[simp] theorem State.setPc_byteAt (s : State) (w : Word) (c : Config) (a : Nat) : (s.setPc w).byteAt c a = s.byteAt c a := rfl

/-! `setStack`. -/

@[simp] theorem State.setStack_v (s : State) (l : List Word) : (s.setStack l).v = s.v := rfl
@[simp] theorem State.setStack_index (s : State) (l : List Word) : (s.setStack l).index = s.index := rfl
@[simp] theorem State.setStack_pc (s : State) (l : List Word) : (s.setStack l).pc = s.pc := rfl
@[simp] theorem State.setStack_stack (s : State) (l : List Word) : (s.setStack l).stack = l := rfl
@[simp] theorem State.setStack_dt (s : State) (l : List Word) : (s.setStack l).dt = s.dt := rfl
@[simp] theorem State.setStack_st (s : State) (l : List Word) : (s.setStack l).st = s.st := rfl
@[simp] theorem State.setStack_mem (s : State) (l : List Word) : (s.setStack l).mem = s.mem := rfl
@[simp] theorem State.setStack_fb (s : State) (l : List Word) : (s.setStack l).fb = s.fb := rfl
@[simp] theorem State.setStack_redraw (s : State) (l : List Word) : (s.setStack l).redraw = s.redraw := rfl
@[simp] theorem State.setStack_keys (s : State) (l : List Word) : (s.setStack l).keys = s.keys := rfl
@[simp] theorem State.setStack_waiting (s : State) (l : List Word) : (s.setStack l).waiting = s.waiting := rfl
@[simp] theorem State.setStack_draws (s : State) (l : List Word) : (s.setStack l).draws = s.draws := rfl
@[simp] theorem State.setStack_beeps (s : State) (l : List Word) : (s.setStack l).beeps = s.beeps := rfl
@[simp] theorem State.setStack_reg (s : State) (l : List Word) (q : Reg) : (s.setStack l).reg q = s.reg q := rfl
@[simp] theorem State.setStack_key (s : State) (l : List Word) (q : Nibble) : (s.setStack l).key q = s.key q := rfl
@[simp] theorem State.setStack_byteAt (s : State) (l : List Word) (c : Config) (a : Nat) : (s.setStack l).byteAt c a = s.byteAt c a := rfl

/-! `setDt`. -/

@[simp] theorem State.setDt_v (s : State) (b : Byte) : (s.setDt b).v = s.v := rfl
@[simp] theorem State.setDt_index (s : State) (b : Byte) : (s.setDt b).index = s.index := rfl
@[simp] theorem State.setDt_pc (s : State) (b : Byte) : (s.setDt b).pc = s.pc := rfl
@[simp] theorem State.setDt_stack (s : State) (b : Byte) : (s.setDt b).stack = s.stack := rfl
@[simp] theorem State.setDt_dt (s : State) (b : Byte) : (s.setDt b).dt = b := rfl
@[simp] theorem State.setDt_st (s : State) (b : Byte) : (s.setDt b).st = s.st := rfl
@[simp] theorem State.setDt_mem (s : State) (b : Byte) : (s.setDt b).mem = s.mem := rfl
@[simp] theorem State.setDt_fb (s : State) (b : Byte) : (s.setDt b).fb = s.fb := rfl
@[simp] theorem State.setDt_redraw (s : State) (b : Byte) : (s.setDt b).redraw = s.redraw := rfl
@[simp] theorem State.setDt_keys (s : State) (b : Byte) : (s.setDt b).keys = s.keys := rfl
@[simp] theorem State.setDt_waiting (s : State) (b : Byte) : (s.setDt b).waiting = s.waiting := rfl
@[simp] theorem State.setDt_draws (s : State) (b : Byte) : (s.setDt b).draws = s.draws := rfl
@[simp] theorem State.setDt_beeps (s : State) (b : Byte) : (s.setDt b).beeps = s.beeps := rfl
@[simp] theorem State.setDt_reg (s : State) (b : Byte) (q : Reg) : (s.setDt b).reg q = s.reg q := rfl
@[simp] theorem State.setDt_key (s : State) (b : Byte) (q : Nibble) : (s.setDt b).key q = s.key q := rfl
@[simp] theorem State.setDt_byteAt (s : State) (b : Byte) (c : Config) (a : Nat) : (s.setDt b).byteAt c a = s.byteAt c a := rfl

/-! `setSt`. -/

@[simp] theorem State.setSt_v (s : State) (b : Byte) : (s.setSt b).v = s.v := rfl
@[simp] theorem State.setSt_index (s : State) (b : Byte) : (s.setSt b).index = s.index := rfl
@[simp] theorem State.setSt_pc (s : State) (b : Byte) : (s.setSt b).pc = s.pc := rfl
@[simp] theorem State.setSt_stack (s : State) (b : Byte) : (s.setSt b).stack = s.stack := rfl
@[simp] theorem State.setSt_dt (s : State) (b : Byte) : (s.setSt b).dt = s.dt := rfl
@[simp] theorem State.setSt_st (s : State) (b : Byte) : (s.setSt b).st = b := rfl
@[simp] theorem State.setSt_mem (s : State) (b : Byte) : (s.setSt b).mem = s.mem := rfl
@[simp] theorem State.setSt_fb (s : State) (b : Byte) : (s.setSt b).fb = s.fb := rfl
@[simp] theorem State.setSt_redraw (s : State) (b : Byte) : (s.setSt b).redraw = s.redraw := rfl
@[simp] theorem State.setSt_keys (s : State) (b : Byte) : (s.setSt b).keys = s.keys := rfl
@[simp] theorem State.setSt_waiting (s : State) (b : Byte) : (s.setSt b).waiting = s.waiting := rfl
@[simp] theorem State.setSt_draws (s : State) (b : Byte) : (s.setSt b).draws = s.draws := rfl
@[simp] theorem State.setSt_beeps (s : State) (b : Byte) : (s.setSt b).beeps = s.beeps := rfl
@[simp] theorem State.setSt_reg (s : State) (b : Byte) (q : Reg) : (s.setSt b).reg q = s.reg q := rfl
@[simp] theorem State.setSt_key (s : State) (b : Byte) (q : Nibble) : (s.setSt b).key q = s.key q := rfl
@[simp] theorem State.setSt_byteAt (s : State) (b : Byte) (c : Config) (a : Nat) : (s.setSt b).byteAt c a = s.byteAt c a := rfl

/-! `setMem`. -/

@[simp] theorem State.setMem_v (s : State) (m : Memory) : (s.setMem m).v = s.v := rfl
@[simp] theorem State.setMem_index (s : State) (m : Memory) : (s.setMem m).index = s.index := rfl
@[simp] theorem State.setMem_pc (s : State) (m : Memory) : (s.setMem m).pc = s.pc := rfl
@[simp] theorem State.setMem_stack (s : State) (m : Memory) : (s.setMem m).stack = s.stack := rfl
@[simp] theorem State.setMem_dt (s : State) (m : Memory) : (s.setMem m).dt = s.dt := rfl
@[simp] theorem State.setMem_st (s : State) (m : Memory) : (s.setMem m).st = s.st := rfl
@[simp] theorem State.setMem_mem (s : State) (m : Memory) : (s.setMem m).mem = m := rfl
@[simp] theorem State.setMem_fb (s : State) (m : Memory) : (s.setMem m).fb = s.fb := rfl
@[simp] theorem State.setMem_redraw (s : State) (m : Memory) : (s.setMem m).redraw = s.redraw := rfl
@[simp] theorem State.setMem_keys (s : State) (m : Memory) : (s.setMem m).keys = s.keys := rfl
@[simp] theorem State.setMem_waiting (s : State) (m : Memory) : (s.setMem m).waiting = s.waiting := rfl
@[simp] theorem State.setMem_draws (s : State) (m : Memory) : (s.setMem m).draws = s.draws := rfl
@[simp] theorem State.setMem_beeps (s : State) (m : Memory) : (s.setMem m).beeps = s.beeps := rfl
@[simp] theorem State.setMem_reg (s : State) (m : Memory) (q : Reg) : (s.setMem m).reg q = s.reg q := rfl
@[simp] theorem State.setMem_key (s : State) (m : Memory) (q : Nibble) : (s.setMem m).key q = s.key q := rfl

/-! `setFb`. -/

@[simp] theorem State.setFb_v (s : State) (d : Display) : (s.setFb d).v = s.v := rfl
@[simp] theorem State.setFb_index (s : State) (d : Display) : (s.setFb d).index = s.index := rfl
@[simp] theorem State.setFb_pc (s : State) (d : Display) : (s.setFb d).pc = s.pc := rfl
@[simp] theorem State.setFb_stack (s : State) (d : Display) : (s.setFb d).stack = s.stack := rfl
@[simp] theorem State.setFb_dt (s : State) (d : Display) : (s.setFb d).dt = s.dt := rfl
@[simp] theorem State.setFb_st (s : State) (d : Display) : (s.setFb d).st = s.st := rfl
@[simp] theorem State.setFb_mem (s : State) (d : Display) : (s.setFb d).mem = s.mem := rfl
@[simp] theorem State.setFb_fb (s : State) (d : Display) : (s.setFb d).fb = d := rfl
@[simp] theorem State.setFb_redraw (s : State) (d : Display) : (s.setFb d).redraw = s.redraw := rfl
@[simp] theorem State.setFb_keys (s : State) (d : Display) : (s.setFb d).keys = s.keys := rfl
@[simp] theorem State.setFb_waiting (s : State) (d : Display) : (s.setFb d).waiting = s.waiting := rfl
@[simp] theorem State.setFb_draws (s : State) (d : Display) : (s.setFb d).draws = s.draws := rfl
@[simp] theorem State.setFb_beeps (s : State) (d : Display) : (s.setFb d).beeps = s.beeps := rfl
@[simp] theorem State.setFb_reg (s : State) (d : Display) (q : Reg) : (s.setFb d).reg q = s.reg q := rfl
@[simp] theorem State.setFb_key (s : State) (d : Display) (q : Nibble) : (s.setFb d).key q = s.key q := rfl
@[simp] theorem State.setFb_byteAt (s : State) (d : Display) (c : Config) (a : Nat) : (s.setFb d).byteAt c a = s.byteAt c a := rfl

/-! `setRedraw`. -/

@[simp] theorem State.setRedraw_v (s : State) (b : Bool) : (s.setRedraw b).v = s.v := rfl
@[simp] theorem State.setRedraw_index (s : State) (b : Bool) : (s.setRedraw b).index = s.index := rfl
@[simp] theorem State.setRedraw_pc (s : State) (b : Bool) : (s.setRedraw b).pc = s.pc := rfl
@[simp] theorem State.setRedraw_stack (s : State) (b : Bool) : (s.setRedraw b).stack = s.stack := rfl
@[simp] theorem State.setRedraw_dt (s : State) (b : Bool) : (s.setRedraw b).dt = s.dt := rfl
@[simp] theorem State.setRedraw_st (s : State) (b : Bool) : (s.setRedraw b).st = s.st := rfl
@[simp] theorem State.setRedraw_mem (s : State) (b : Bool) : (s.setRedraw b).mem = s.mem := rfl
@[simp] theorem State.setRedraw_fb (s : State) (b : Bool) : (s.setRedraw b).fb = s.fb := rfl
@[simp] theorem State.setRedraw_redraw (s : State) (b : Bool) : (s.setRedraw b).redraw = b := rfl
@[simp] theorem State.setRedraw_keys (s : State) (b : Bool) : (s.setRedraw b).keys = s.keys := rfl
@[simp] theorem State.setRedraw_waiting (s : State) (b : Bool) : (s.setRedraw b).waiting = s.waiting := rfl
@[simp] theorem State.setRedraw_draws (s : State) (b : Bool) : (s.setRedraw b).draws = s.draws := rfl
@[simp] theorem State.setRedraw_beeps (s : State) (b : Bool) : (s.setRedraw b).beeps = s.beeps := rfl
@[simp] theorem State.setRedraw_reg (s : State) (b : Bool) (q : Reg) : (s.setRedraw b).reg q = s.reg q := rfl
@[simp] theorem State.setRedraw_key (s : State) (b : Bool) (q : Nibble) : (s.setRedraw b).key q = s.key q := rfl
@[simp] theorem State.setRedraw_byteAt (s : State) (b : Bool) (c : Config) (a : Nat) : (s.setRedraw b).byteAt c a = s.byteAt c a := rfl

/-! `setKey`. -/

@[simp] theorem State.setKey_v (s : State) (k : Nibble) (b : Bool) : (s.setKey k b).v = s.v := rfl
@[simp] theorem State.setKey_index (s : State) (k : Nibble) (b : Bool) : (s.setKey k b).index = s.index := rfl
@[simp] theorem State.setKey_pc (s : State) (k : Nibble) (b : Bool) : (s.setKey k b).pc = s.pc := rfl
@[simp] theorem State.setKey_stack (s : State) (k : Nibble) (b : Bool) : (s.setKey k b).stack = s.stack := rfl
@[simp] theorem State.setKey_dt (s : State) (k : Nibble) (b : Bool) : (s.setKey k b).dt = s.dt := rfl
@[simp] theorem State.setKey_st (s : State) (k : Nibble) (b : Bool) : (s.setKey k b).st = s.st := rfl
@[simp] theorem State.setKey_mem (s : State) (k : Nibble) (b : Bool) : (s.setKey k b).mem = s.mem := rfl
@[simp] theorem State.setKey_fb (s : State) (k : Nibble) (b : Bool) : (s.setKey k b).fb = s.fb := rfl
@[simp] theorem State.setKey_redraw (s : State) (k : Nibble) (b : Bool) : (s.setKey k b).redraw = s.redraw := rfl
@[simp] theorem State.setKey_keys (s : State) (k : Nibble) (b : Bool) : (s.setKey k b).keys = s.keys.set k.toNat b k.isLt := rfl
@[simp] theorem State.setKey_waiting (s : State) (k : Nibble) (b : Bool) : (s.setKey k b).waiting = s.waiting := rfl
@[simp] theorem State.setKey_draws (s : State) (k : Nibble) (b : Bool) : (s.setKey k b).draws = s.draws := rfl
@[simp] theorem State.setKey_beeps (s : State) (k : Nibble) (b : Bool) : (s.setKey k b).beeps = s.beeps := rfl
@[simp] theorem State.setKey_reg (s : State) (k : Nibble) (b : Bool) (q : Reg) : (s.setKey k b).reg q = s.reg q := rfl
@[simp] theorem State.setKey_byteAt (s : State) (k : Nibble) (b : Bool) (c : Config) (a : Nat) : (s.setKey k b).byteAt c a = s.byteAt c a := rfl

/-! `setWaiting`. -/

@[simp] theorem State.setWaiting_v (s : State) (b : Bool) : (s.setWaiting b).v = s.v := rfl
@[simp] theorem State.setWaiting_index (s : State) (b : Bool) : (s.setWaiting b).index = s.index := rfl
@[simp] theorem State.setWaiting_pc (s : State) (b : Bool) : (s.setWaiting b).pc = s.pc := rfl
@[simp] theorem State.setWaiting_stack (s : State) (b : Bool) : (s.setWaiting b).stack = s.stack := rfl
@[simp] theorem State.setWaiting_dt (s : State) (b : Bool) : (s.setWaiting b).dt = s.dt := rfl
@[simp] theorem State.setWaiting_st (s : State) (b : Bool) : (s.setWaiting b).st = s.st := rfl
@[simp] theorem State.setWaiting_mem (s : State) (b : Bool) : (s.setWaiting b).mem = s.mem := rfl
@[simp] theorem State.setWaiting_fb (s : State) (b : Bool) : (s.setWaiting b).fb = s.fb := rfl
@[simp] theorem State.setWaiting_redraw (s : State) (b : Bool) : (s.setWaiting b).redraw = s.redraw := rfl
@[simp] theorem State.setWaiting_keys (s : State) (b : Bool) : (s.setWaiting b).keys = s.keys := rfl
@[simp] theorem State.setWaiting_waiting (s : State) (b : Bool) : (s.setWaiting b).waiting = b := rfl
@[simp] theorem State.setWaiting_draws (s : State) (b : Bool) : (s.setWaiting b).draws = s.draws := rfl
@[simp] theorem State.setWaiting_beeps (s : State) (b : Bool) : (s.setWaiting b).beeps = s.beeps := rfl
@[simp] theorem State.setWaiting_reg (s : State) (b : Bool) (q : Reg) : (s.setWaiting b).reg q = s.reg q := rfl
@[simp] theorem State.setWaiting_key (s : State) (b : Bool) (q : Nibble) : (s.setWaiting b).key q = s.key q := rfl
@[simp] theorem State.setWaiting_byteAt (s : State) (b : Bool) (c : Config) (a : Nat) : (s.setWaiting b).byteAt c a = s.byteAt c a := rfl

/-! `countDraw`. -/

@[simp] theorem State.countDraw_v (s : State) : s.countDraw.v = s.v := rfl
@[simp] theorem State.countDraw_index (s : State) : s.countDraw.index = s.index := rfl
@[simp] theorem State.countDraw_pc (s : State) : s.countDraw.pc = s.pc := rfl
@[simp] theorem State.countDraw_stack (s : State) : s.countDraw.stack = s.stack := rfl
@[simp] theorem State.countDraw_dt (s : State) : s.countDraw.dt = s.dt := rfl
@[simp] theorem State.countDraw_st (s : State) : s.countDraw.st = s.st := rfl
@[simp] theorem State.countDraw_mem (s : State) : s.countDraw.mem = s.mem := rfl
@[simp] theorem State.countDraw_fb (s : State) : s.countDraw.fb = s.fb := rfl
@[simp] theorem State.countDraw_redraw (s : State) : s.countDraw.redraw = s.redraw := rfl
@[simp] theorem State.countDraw_keys (s : State) : s.countDraw.keys = s.keys := rfl
@[simp] theorem State.countDraw_waiting (s : State) : s.countDraw.waiting = s.waiting := rfl
@[simp] theorem State.countDraw_draws (s : State) : s.countDraw.draws = s.draws + 1 := rfl
@[simp] theorem State.countDraw_beeps (s : State) : s.countDraw.beeps = s.beeps := rfl
@[simp] theorem State.countDraw_reg (s : State) (q : Reg) : s.countDraw.reg q = s.reg q := rfl
@[simp] theorem State.countDraw_key (s : State) (q : Nibble) : s.countDraw.key q = s.key q := rfl
@[simp] theorem State.countDraw_byteAt (s : State) (c : Config) (a : Nat) : s.countDraw.byteAt c a = s.byteAt c a := rfl

/-! `emitBeeps`. -/

@[simp] theorem State.emitBeeps_v (s : State) (n : Nat) : (s.emitBeeps n).v = s.v := rfl
@[simp] theorem State.emitBeeps_index (s : State) (n : Nat) : (s.emitBeeps n).index = s.index := rfl
@[simp] theorem State.emitBeeps_pc (s : State) (n : Nat) : (s.emitBeeps n).pc = s.pc := rfl
@[simp] theorem State.emitBeeps_stack (s : State) (n : Nat) : (s.emitBeeps n).stack = s.stack := rfl
@[simp] theorem State.emitBeeps_dt (s : State) (n : Nat) : (s.emitBeeps n).dt = s.dt := rfl
@[simp] theorem State.emitBeeps_st (s : State) (n : Nat) : (s.emitBeeps n).st = s.st := rfl
@[simp] theorem State.emitBeeps_mem (s : State) (n : Nat) : (s.emitBeeps n).mem = s.mem := rfl
@[simp] theorem State.emitBeeps_fb (s : State) (n : Nat) : (s.emitBeeps n).fb = s.fb := rfl
@[simp] theorem State.emitBeeps_redraw (s : State) (n : Nat) : (s.emitBeeps n).redraw = s.redraw := rfl
@[simp] theorem State.emitBeeps_keys (s : State) (n : Nat) : (s.emitBeeps n).keys = s.keys := rfl
@[simp] theorem State.emitBeeps_waiting (s : State) (n : Nat) : (s.emitBeeps n).waiting = s.waiting := rfl
@[simp] theorem State.emitBeeps_draws (s : State) (n : Nat) : (s.emitBeeps n).draws = s.draws := rfl
@[simp] theorem State.emitBeeps_beeps (s : State) (n : Nat) : (s.emitBeeps n).beeps = s.beeps + n := rfl
@[simp] theorem State.emitBeeps_reg (s : State) (n : Nat) (q : Reg) : (s.emitBeeps n).reg q = s.reg q := rfl
@[simp] theorem State.emitBeeps_key (s : State) (n : Nat) (q : Nibble) : (s.emitBeeps n).key q = s.key q := rfl
@[simp] theorem State.emitBeeps_byteAt (s : State) (n : Nat) (c : Config) (a : Nat) : (s.emitBeeps n).byteAt c a = s.byteAt c a := rfl

/-! Registers and keys, through their accessors. -/

@[simp] theorem State.setReg_reg (s : State) (r q : Reg) (b : Byte) :
    (s.setReg r b).reg q = if q = r then b else s.reg q := by
  simp only [State.reg, State.setReg_v, Vector.getElem_set]
  by_cases h : q = r
  · simp [h]
  · have : ¬ r.toNat = q.toNat := fun e => h (BitVec.eq_of_toNat_eq e.symm)
    simp [h, this]

@[simp] theorem State.setRegsUpTo_reg (s : State) (x q : Reg) (f : Nat → Byte) :
    (s.setRegsUpTo x f).reg q = if q ≤ x then f q.toNat else s.reg q := by
  simp [State.reg, BitVec.le_def]

@[simp] theorem State.setKey_key (s : State) (k q : Nibble) (b : Bool) :
    (s.setKey k b).key q = if q = k then b else s.key q := by
  simp only [State.key, State.setKey_keys, Vector.getElem_set]
  by_cases h : q = k
  · simp [h]
  · have : ¬ k.toNat = q.toNat := fun e => h (BitVec.eq_of_toNat_eq e.symm)
    simp [h, this]

@[simp] theorem State.setMem_byteAt (s : State) (m : Memory) (c : Config) (a : Nat) :
    (s.setMem m).byteAt c a = m.read c a := rfl

/-! `setFlag` and `setRegAndFlag`. -/

@[simp] theorem State.setFlag_reg (s : State) (b : Bool) (q : Reg) :
    (s.setFlag b).reg q = if q = 0xF then flagByte b else s.reg q := by
  simp [State.setFlag]

@[simp] theorem State.setRegAndFlag_reg (s : State) (x q : Reg) (a : Byte) (b : Bool) :
    (s.setRegAndFlag x a b).reg q =
      if q = 0xF then flagByte b else if q = x then a else s.reg q := by
  simp [State.setRegAndFlag]

@[simp] theorem State.setFlag_index (s : State) (b : Bool) : (s.setFlag b).index = s.index := rfl
@[simp] theorem State.setFlag_pc (s : State) (b : Bool) : (s.setFlag b).pc = s.pc := rfl
@[simp] theorem State.setFlag_stack (s : State) (b : Bool) : (s.setFlag b).stack = s.stack := rfl
@[simp] theorem State.setFlag_dt (s : State) (b : Bool) : (s.setFlag b).dt = s.dt := rfl
@[simp] theorem State.setFlag_st (s : State) (b : Bool) : (s.setFlag b).st = s.st := rfl
@[simp] theorem State.setFlag_mem (s : State) (b : Bool) : (s.setFlag b).mem = s.mem := rfl
@[simp] theorem State.setFlag_fb (s : State) (b : Bool) : (s.setFlag b).fb = s.fb := rfl
@[simp] theorem State.setFlag_redraw (s : State) (b : Bool) : (s.setFlag b).redraw = s.redraw := rfl
@[simp] theorem State.setFlag_keys (s : State) (b : Bool) : (s.setFlag b).keys = s.keys := rfl
@[simp] theorem State.setFlag_waiting (s : State) (b : Bool) : (s.setFlag b).waiting = s.waiting := rfl
@[simp] theorem State.setFlag_draws (s : State) (b : Bool) : (s.setFlag b).draws = s.draws := rfl
@[simp] theorem State.setFlag_beeps (s : State) (b : Bool) : (s.setFlag b).beeps = s.beeps := rfl
@[simp] theorem State.setFlag_byteAt (s : State) (b : Bool) (c : Config) (a : Nat) : (s.setFlag b).byteAt c a = s.byteAt c a := rfl
@[simp] theorem State.setRegAndFlag_index (s : State) (x : Reg) (a : Byte) (b : Bool) : (s.setRegAndFlag x a b).index = s.index := rfl
@[simp] theorem State.setRegAndFlag_pc (s : State) (x : Reg) (a : Byte) (b : Bool) : (s.setRegAndFlag x a b).pc = s.pc := rfl
@[simp] theorem State.setRegAndFlag_stack (s : State) (x : Reg) (a : Byte) (b : Bool) : (s.setRegAndFlag x a b).stack = s.stack := rfl
@[simp] theorem State.setRegAndFlag_dt (s : State) (x : Reg) (a : Byte) (b : Bool) : (s.setRegAndFlag x a b).dt = s.dt := rfl
@[simp] theorem State.setRegAndFlag_st (s : State) (x : Reg) (a : Byte) (b : Bool) : (s.setRegAndFlag x a b).st = s.st := rfl
@[simp] theorem State.setRegAndFlag_mem (s : State) (x : Reg) (a : Byte) (b : Bool) : (s.setRegAndFlag x a b).mem = s.mem := rfl
@[simp] theorem State.setRegAndFlag_fb (s : State) (x : Reg) (a : Byte) (b : Bool) : (s.setRegAndFlag x a b).fb = s.fb := rfl
@[simp] theorem State.setRegAndFlag_redraw (s : State) (x : Reg) (a : Byte) (b : Bool) : (s.setRegAndFlag x a b).redraw = s.redraw := rfl
@[simp] theorem State.setRegAndFlag_keys (s : State) (x : Reg) (a : Byte) (b : Bool) : (s.setRegAndFlag x a b).keys = s.keys := rfl
@[simp] theorem State.setRegAndFlag_waiting (s : State) (x : Reg) (a : Byte) (b : Bool) : (s.setRegAndFlag x a b).waiting = s.waiting := rfl
@[simp] theorem State.setRegAndFlag_draws (s : State) (x : Reg) (a : Byte) (b : Bool) : (s.setRegAndFlag x a b).draws = s.draws := rfl
@[simp] theorem State.setRegAndFlag_beeps (s : State) (x : Reg) (a : Byte) (b : Bool) : (s.setRegAndFlag x a b).beeps = s.beeps := rfl
@[simp] theorem State.setRegAndFlag_byteAt (s : State) (x : Reg) (d : Byte) (b : Bool) (c : Config) (a : Nat) : (s.setRegAndFlag x d b).byteAt c a = s.byteAt c a := rfl

end Sys2Proof.Machine
end

