-- ==== Sys2Proof/Laws/Ops.lean ====
section
/-! SUPPORT. What each shared operation can do, said once. -/

namespace Sys2Proof.Machine

/-! Configuration values. -/

@[simp] theorem hw_memSize : Config.hw.memSize = 4095 := rfl
@[simp] theorem hw_textOffset : Config.hw.textOffset = 0x200 := rfl
@[simp] theorem hw_fbWidth : Config.hw.fbWidth = 64 := rfl
@[simp] theorem hw_fbHeight : Config.hw.fbHeight = 32 := rfl
@[simp] theorem hw_stackDepth : Config.hw.stackDepth = 16 := rfl
@[simp] theorem hw_oobPolicy : Config.hw.oobPolicy = .clip := rfl

/-- This hardware's parameters meet the constraints of R5. -/
theorem hw_wellFormed : Config.hw.wellFormed = true := by decide

/-- A write to `I` keeps the value modulo 4096. -/
@[simp] theorem and_addrMask_toNat (w : Word) : (w &&& Config.addrMask).toNat = w.toNat % 4096 := by
  rw [BitVec.toNat_and]
  exact Nat.and_two_pow_sub_one_eq_mod w.toNat 12

/-! Memory: reads after writes. -/

theorem Memory.read_erase (c : Config) (a b : Nat) (m : Memory) :
    (m.erase a).read c b = if b = a then Memory.unlisted c b else m.read c b := by
  induction m with
  | nil => simp [Memory.erase, Memory.read]
  | cons e m ih =>
    simp only [Memory.erase] at ih ⊢
    by_cases h : e.1 = a
    · rw [List.filter_cons_of_neg (by simp [h]), ih]
      by_cases hb : b = a
      · simp [hb]
      · simp [hb, Memory.read, show ¬ e.1 = b from fun h' => hb (h'.symm.trans h)]
    · rw [List.filter_cons_of_pos (by simp [h])]
      simp only [Memory.read, ih]
      by_cases hb : e.1 = b
      · simp [hb, show ¬ b = a from fun h' => h (hb.trans h')]
      · simp [hb]

theorem Memory.read_insert_same (c : Config) (a : Nat) (d : Byte) (m : Memory)
    (h : ∀ e ∈ m, e.1 ≠ a) : (m.insert a d).read c a = d := by
  induction m with
  | nil => simp [Memory.insert, Memory.read]
  | cons e m ih =>
    simp only [Memory.insert]
    split
    · simp [Memory.read]
    · simp [Memory.read, h e (by simp), ih (fun e' he => h e' (by simp [he]))]

theorem Memory.read_insert_other (c : Config) (a b : Nat) (d : Byte) (m : Memory) (h : b ≠ a) :
    (m.insert a d).read c b = m.read c b := by
  induction m with
  | nil => simp [Memory.insert, Memory.read, h.symm]
  | cons e m ih =>
    simp only [Memory.insert]
    split
    · simp [Memory.read, h.symm]
    · simp [Memory.read, ih]

/-- A read after a write gives the byte written there and leaves every other address alone. -/
@[simp] theorem Memory.read_write (c : Config) (a b : Nat) (d : Byte) (m : Memory) :
    (m.write c a d).read c b = if b = a then d else m.read c b := by
  unfold Memory.write
  split
  · rename_i h
    rw [Memory.read_erase]
    split <;> simp_all
  · by_cases hb : b = a
    · subst hb
      rw [Memory.read_insert_same]
      · simp
      · intro e he
        simpa using (List.mem_filter.mp he).2
    · rw [Memory.read_insert_other c a b d _ hb, Memory.read_erase, if_neg hb, if_neg hb]

/-- A read after a block write. -/
theorem Memory.read_writeBytes (c : Config) (bs : List Byte) (a b : Nat) (m : Memory) :
    (m.writeBytes c a bs).read c b =
      if a ≤ b then bs.getD (b - a) (m.read c b) else m.read c b := by
  induction bs generalizing a m with
  | nil => simp [Memory.writeBytes]
  | cons d bs ih =>
    rw [Memory.writeBytes, ih]
    by_cases h1 : a + 1 ≤ b
    · have e : b - a = (b - (a + 1)) + 1 := by omega
      rw [if_pos h1, if_pos (by omega), e, List.getD_cons_succ, Memory.read_write,
        if_neg (by omega)]
    · rw [if_neg h1, Memory.read_write]
      by_cases h2 : b = a
      · simp [h2]
      · rw [if_neg h2, if_neg (by omega)]

@[simp] theorem Memory.length_readBytes (c : Config) (m : Memory) (a len : Nat) :
    (m.readBytes c a len).length = len := by simp [Memory.readBytes]

/-! Memory: the canonical form. -/

theorem Memory.wf_nil (c : Config) : Memory.wf c [] := by simp [Memory.wf]

theorem Memory.wf_erase {c : Config} {m : Memory} (a : Nat) (h : Memory.wf c m) :
    Memory.wf c (m.erase a) :=
  ⟨h.1.filter _, fun e he => h.2 e (List.mem_filter.mp he).1⟩

theorem Memory.mem_insert {a : Nat} {d : Byte} {m : Memory} {e : Host.Cell} :
    e ∈ m.insert a d ↔ e = (a, d) ∨ e ∈ m := by
  induction m with
  | nil => simp [Memory.insert]
  | cons f m ih =>
    simp only [Memory.insert]
    split
    · simp
    · simp only [List.mem_cons, ih]; tauto

theorem Memory.wf_insert {c : Config} {m : Memory} {a : Nat} {d : Byte} (h : Memory.wf c m)
    (hm : ∀ e ∈ m, e.1 ≠ a) (ha : a < c.memSize) (hd : d ≠ Memory.unlisted c a) :
    Memory.wf c (m.insert a d) := by
  refine ⟨?_, fun e he => ?_⟩
  · have hs := h.1
    clear h
    induction m with
    | nil => simp [Memory.insert]
    | cons f m ih =>
      rw [List.pairwise_cons] at hs
      have hf : f.1 ≠ a := hm f (by simp)
      simp only [Memory.insert]
      split
      · rename_i hlt
        refine List.pairwise_cons.mpr ⟨fun e he => ?_, List.pairwise_cons.mpr hs⟩
        rcases List.mem_cons.mp he with rfl | he
        · exact hlt
        · exact Nat.lt_trans hlt (hs.1 e he)
      · refine List.pairwise_cons.mpr ⟨fun e he => ?_, ih (fun e he => hm e (by simp [he])) hs.2⟩
        rcases Memory.mem_insert.mp he with rfl | he
        · simp only; omega
        · exact hs.1 e he
  · rcases Memory.mem_insert.mp he with rfl | he
    · exact ⟨ha, hd⟩
    · exact h.2 e he

/-- A write to an address that exists keeps the canonical form. -/
theorem Memory.wf_write {c : Config} {m : Memory} (a : Nat) (d : Byte) (h : Memory.wf c m)
    (ha : a < c.memSize) : Memory.wf c (m.write c a d) := by
  unfold Memory.write
  split
  · exact Memory.wf_erase a h
  · rename_i hd
    refine Memory.wf_insert (Memory.wf_erase a h) (fun e he => ?_) ha hd
    simpa using (List.mem_filter.mp he).2

/-- A block write to addresses that exist keeps the canonical form. -/
theorem Memory.wf_writeBytes {c : Config} (bs : List Byte) {m : Memory} (a : Nat)
    (h : Memory.wf c m) (ha : a + bs.length ≤ c.memSize) : Memory.wf c (m.writeBytes c a bs) := by
  induction bs generalizing a m with
  | nil => exact h
  | cons d bs ih =>
    simp only [List.length_cons] at ha
    exact ih (a + 1) (Memory.wf_write a d h (by omega)) (by omega)

/-! The framebuffer. -/

theorem Display.mem_insert {i j : Nat} {d : Display} :
    j ∈ Display.insert i d ↔ j = i ∨ j ∈ d := by
  induction d with
  | nil => simp [Display.insert]
  | cons k d ih =>
    simp only [Display.insert]
    split
    · simp
    · simp only [List.mem_cons, ih]; tauto

/-- Toggling flips its own cell and no other. -/
@[simp] theorem Display.cell_toggle (i j : Nat) (d : Display) :
    (d.toggle i).cell j = if j = i then !d.cell i else d.cell j := by
  unfold Display.toggle
  split
  · rename_i h
    simp only [Display.cell, List.contains_eq_mem, List.mem_filter] at h ⊢
    split <;> simp_all
  · rename_i h
    simp only [Display.cell, List.contains_eq_mem, Display.mem_insert] at h ⊢
    split <;> simp_all

theorem Display.wf_nil (c : Config) : Display.wf c [] := by simp [Display.wf]

theorem Display.wf_insert {c : Config} {d : Display} {i : Nat} (h : Display.wf c d)
    (hd : i ∉ d) (hi : i < c.fbWidth * c.fbHeight) : Display.wf c (Display.insert i d) := by
  refine ⟨?_, fun j hj => ?_⟩
  · have hs := h.1
    clear h
    induction d with
    | nil => simp [Display.insert]
    | cons k d ih =>
      rw [List.pairwise_cons] at hs
      have hk : k ≠ i := fun e => hd (by simp [e])
      simp only [Display.insert]
      split
      · rename_i hlt
        refine List.pairwise_cons.mpr ⟨fun e he => ?_, List.pairwise_cons.mpr hs⟩
        rcases List.mem_cons.mp he with rfl | he
        · exact hlt
        · exact Nat.lt_trans hlt (hs.1 e he)
      · refine List.pairwise_cons.mpr ⟨fun e he => ?_, ih (fun h' => hd (by simp [h'])) hs.2⟩
        rcases Display.mem_insert.mp he with rfl | he
        · omega
        · exact hs.1 e he
  · rcases Display.mem_insert.mp hj with rfl | hj
    · exact hi
    · exact h.2 j hj

/-- Toggling a cell the framebuffer has keeps the canonical form. -/
theorem Display.wf_toggle {c : Config} {d : Display} {i : Nat} (h : Display.wf c d)
    (hi : i < c.fbWidth * c.fbHeight) : Display.wf c (d.toggle i) := by
  unfold Display.toggle
  split
  · exact ⟨h.1.filter _, fun j hj => h.2 j (List.mem_filter.mp hj).1⟩
  · rename_i hc
    exact Display.wf_insert h (by simpa [Display.cell] using hc) hi

/-- Two framebuffers in canonical form with the same cells are equal. -/
theorem Display.ext_of_wf {c : Config} {d e : Display} (hd : Display.wf c d) (he : Display.wf c e)
    (h : ∀ i, d.cell i = e.cell i) : d = e := by
  refine List.Perm.eq_of_pairwise (le := (· < ·)) (fun a b _ _ h1 h2 => by omega) hd.1 he.1 ?_
  refine (List.perm_ext_iff_of_nodup ?_ ?_).mpr fun i => ?_
  · exact hd.1.imp fun hlt => Nat.ne_of_lt hlt
  · exact he.1.imp fun hlt => Nat.ne_of_lt hlt
  · simpa [Display.cell] using h i

/-! The span check. -/

/-- A guarded access answers what `k` answers if every byte exists, and else the one fault. -/
theorem guardSpan_eq (c : Config) (a len : Nat) (k : Result) :
    (len = 0 ∨ a + len ≤ c.memSize) ∧ guardSpan c a len k = k ∨
    (len ≠ 0 ∧ c.memSize < a + len) ∧
      guardSpan c a len k = .fault (.memOutOfBounds (max a c.memSize)) := by
  unfold guardSpan spanInBounds
  by_cases h : len = 0 ∨ a + len ≤ c.memSize
  · exact .inl ⟨h, by simp [h]⟩
  · exact .inr ⟨by omega, by simp [h]⟩

theorem guardSpan_inBounds {c : Config} {a len : Nat} (k : Result)
    (h : len = 0 ∨ a + len ≤ c.memSize) : guardSpan c a len k = k := by
  simp [guardSpan, spanInBounds, h]

/-- If a guarded access answers a next state, every byte exists and the answer is `k`'s. -/
theorem guardSpan_next {c : Config} {a len : Nat} {k : Result} {t : State}
    (h : guardSpan c a len k = .next t) : (len = 0 ∨ a + len ≤ c.memSize) ∧ k = .next t := by
  rcases guardSpan_eq c a len k with ⟨hb, he⟩ | ⟨_, he⟩
  · exact ⟨hb, he ▸ h⟩
  · rw [he] at h; cases h

/-! The stack. -/

/-- All a push can do. -/
theorem push_cases (c : Config) (w : Word) (s : State) :
    (s.stack.length < c.stackDepth ∧ push c w s = .ok (s.setStack (w :: s.stack))) ∨
    (c.stackDepth ≤ s.stack.length ∧ push c w s = .error (.stackOverflow s.pc)) := by
  unfold push
  by_cases h : s.stack.length < c.stackDepth
  · exact .inl ⟨h, by simp [h]⟩
  · exact .inr ⟨by omega, by simp [h]⟩

/-- All a pop can do. -/
theorem pop_cases (s : State) :
    (s.stack = [] ∧ pop s = .error (.stackUnderflow s.pc)) ∨
    ∃ w l, s.stack = w :: l ∧ pop s = .ok (w, s.setStack l) := by
  unfold pop
  cases h : s.stack with
  | nil => exact .inl ⟨rfl, rfl⟩
  | cons w l => exact .inr ⟨w, l, rfl, rfl⟩

/-! The end of a cycle. -/

theorem countDown_toNat (b : Byte) : (countDown b).toNat = b.toNat - 1 := by
  revert b; decide

theorem beep_iff (b : Byte) : (b ≠ 0 ∧ countDown b = 1) ↔ b = 2 := by
  revert b; decide

/-- The tick is the one of R94. -/
theorem tick_tickedFrom (s : State) : TickedFrom s.dt s.st s (tick s) := by
  refine ⟨countDown_toNat _, countDown_toNat _, ?_⟩
  show s.beeps + _ = _
  simp only [beep_iff]

@[simp] theorem tick_v (s : State) : (tick s).v = s.v := rfl
@[simp] theorem tick_index (s : State) : (tick s).index = s.index := rfl
@[simp] theorem tick_pc (s : State) : (tick s).pc = s.pc := rfl
@[simp] theorem tick_stack (s : State) : (tick s).stack = s.stack := rfl
@[simp] theorem tick_dt (s : State) : (tick s).dt = countDown s.dt := rfl
@[simp] theorem tick_st (s : State) : (tick s).st = countDown s.st := rfl
@[simp] theorem tick_mem (s : State) : (tick s).mem = s.mem := rfl
@[simp] theorem tick_fb (s : State) : (tick s).fb = s.fb := rfl
@[simp] theorem tick_redraw (s : State) : (tick s).redraw = s.redraw := rfl
@[simp] theorem tick_keys (s : State) : (tick s).keys = s.keys := rfl
@[simp] theorem tick_waiting (s : State) : (tick s).waiting = s.waiting := rfl
@[simp] theorem tick_draws (s : State) : (tick s).draws = s.draws := rfl
@[simp] theorem tick_reg (s : State) (r : Reg) : (tick s).reg r = s.reg r := rfl
@[simp] theorem tick_key (s : State) (k : Nibble) : (tick s).key k = s.key k := rfl
@[simp] theorem tick_byteAt (s : State) (c : Config) (a : Nat) :
    (tick s).byteAt c a = s.byteAt c a := rfl

/-- All a completed cycle does after the instruction's own effect `u`: the tick, `pc`, `waiting`. -/
theorem complete_next {next : Word} {u t : State} (h : complete next u = .next t) :
    CompletedAt next u t ∧ OnlyChanged c [] [] u t := by
  injection h with h
  subst h
  refine ⟨⟨tick_tickedFrom u, rfl, rfl⟩, fun r _ => rfl, fun k _ => ?_, rfl⟩
  cases k <;> simp [Kept]

/-- A completed cycle always answers a next state. -/
theorem complete_answers (next : Word) (u : State) : ∃ t, complete next u = .next t := ⟨_, rfl⟩

/-- A cycle whose own effect `u` kept the timers and changed only the given registers and items
completes as such. -/
theorem complete_doneChanging {c : Config} {regs : List Reg} {items : List Item} {s u : State}
    (next : Word) (hdt : u.dt = s.dt) (hst : u.st = s.st) (hb : u.beeps = s.beeps)
    (h : OnlyChanged c regs items s u) :
    ∃ t, complete next u = .next t ∧ (∀ r, t.reg r = u.reg r) ∧ (∀ k, Kept c k u t) ∧
      DoneChanging c regs items next s t := by
  obtain ⟨t, ht⟩ := complete_answers next u
  obtain ⟨⟨⟨h1, h2, h3⟩, hpc, hw⟩, hr, hk, hkeys⟩ := complete_next ht
  refine ⟨t, ht, fun r => hr r (by simp), fun k => hk k (by simp),
    ⟨⟨?_, ?_, ?_⟩, hpc, hw⟩, fun r hr' => (hr r (by simp)).trans (h.1 r hr'),
    fun k hk' => ?_, hkeys.trans h.2.2⟩
  · rw [h1, hdt]
  · rw [h2, hst]
  · rw [h3, hst, hb]
  · have a := hk k (by simp)
    have b := h.2.1 k hk'
    cases k <;> simp only [Kept] at a b ⊢
    all_goals first | exact a.trans b | exact fun x => (a x).trans (b x)

/-! Frames of the shared updates. -/

theorem onlyChanged_refl (c : Config) (s : State) : OnlyChanged c [] [] s s :=
  ⟨fun _ _ => rfl, fun k _ => by cases k <;> simp [Kept], rfl⟩

theorem onlyChanged_setReg (c : Config) (s : State) (r : Reg) (b : Byte) :
    OnlyChanged c [r] [] s (s.setReg r b) :=
  ⟨fun q hq => by simp_all, fun k _ => by cases k <;> simp [Kept], rfl⟩

theorem onlyChanged_setRegAndFlag (c : Config) (s : State) (r : Reg) (b : Byte) (f : Bool) :
    OnlyChanged c [r, 0xF] [] s (s.setRegAndFlag r b f) :=
  ⟨fun q hq => by simp_all, fun k _ => by cases k <;> simp [Kept], rfl⟩

theorem onlyChanged_setIndex (c : Config) (s : State) (w : Word) :
    OnlyChanged c [] [.index] s (s.setIndex w) :=
  ⟨fun _ _ => rfl, fun k hk => by cases k <;> simp [Kept] at hk ⊢, rfl⟩

theorem onlyChanged_setStack (c : Config) (s : State) (l : List Word) :
    OnlyChanged c [] [.stack] s (s.setStack l) :=
  ⟨fun _ _ => rfl, fun k hk => by cases k <;> simp [Kept] at hk ⊢, rfl⟩

theorem onlyChanged_setMem (c : Config) (s : State) (m : Memory) :
    OnlyChanged c [] [.memory] s (s.setMem m) :=
  ⟨fun _ _ => rfl, fun k hk => by cases k <;> simp [Kept] at hk ⊢, rfl⟩

/-- Frames of two updates, one after the other. -/
theorem OnlyChanged.trans {c : Config} {r r' : List Reg} {k k' : List Item} {s t u : State}
    (h : OnlyChanged c r k s t) (h' : OnlyChanged c r' k' t u) :
    OnlyChanged c (r ++ r') (k ++ k') s u := by
  refine ⟨fun q hq => ?_, fun q hq => ?_, h'.2.2.trans h.2.2⟩
  · rw [List.mem_append, not_or] at hq
    exact (h'.1 q hq.2).trans (h.1 q hq.1)
  · rw [List.mem_append, not_or] at hq
    have a := h.2.1 q hq.1
    have b := h'.2.1 q hq.2
    cases q <;> simp only [Kept] at a b ⊢
    all_goals first | exact b.trans a | exact fun x => (b x).trans (a x)

/-- The outcome `Waiting` changes `waiting` alone. -/
theorem wait_next {s t : State} (h : wait s = .next t) : t = s.setWaiting true := by
  injection h with h
  exact h.symm

/-! Keys. -/

/-- No key is found exactly where none is pressed. -/
theorem lowestKey_eq_none {s : State} : s.lowestKey = none ↔ ∀ k, s.key k = false := by
  simp only [State.lowestKey, Option.map_eq_none_iff, List.find?_range_eq_none]
  constructor
  · intro h k
    simpa using h k.toNat k.isLt
  · intro h k _
    simp [h]

/-- The key found is pressed and no lower one is. -/
theorem lowestKey_eq_some {s : State} {k : Nibble} :
    s.lowestKey = some k ↔ s.key k = true ∧ ∀ j, j < k → s.key j = false := by
  simp only [State.lowestKey, Option.map_eq_some_iff, List.find?_range_eq_some, List.mem_range]
  constructor
  · rintro ⟨n, ⟨hn, hlt, hj⟩, rfl⟩
    refine ⟨hn, fun j h => ?_⟩
    have h' : j.toNat < n := by
      have := BitVec.lt_def.mp h
      rwa [BitVec.toNat_ofNat, Nat.mod_eq_of_lt hlt] at this
    simpa using hj j.toNat h'
  · rintro ⟨hk, hj⟩
    refine ⟨k.toNat, ⟨by simpa using hk, k.isLt, fun n hn => ?_⟩, by simp⟩
    have hlt := k.isLt
    rw [hj (BitVec.ofNat 4 n) (BitVec.lt_def.mpr ?_)]
    · rfl
    · rw [BitVec.toNat_ofNat, Nat.mod_eq_of_lt (by omega)]
      exact hn

/-! Fetching and the cycle. -/

/-- All a fetch can do. -/
theorem fetch_cases (c : Config) (s : State) :
    (s.pc.toNat + 1 < c.memSize ∧ fetch c s =
      .ok (wordOfBytes (s.byteAt c s.pc.toNat) (s.byteAt c (s.pc.toNat + 1)))) ∨
    (c.memSize ≤ s.pc.toNat + 1 ∧ fetch c s = .error (.fetchOutOfBounds s.pc)) := by
  unfold fetch
  by_cases h : s.pc.toNat + 1 < c.memSize
  · exact .inl ⟨h, by simp [h]⟩
  · exact .inr ⟨by omega, by simp [h]⟩

/-- If a cycle answers a next state, it fetched and decoded an instruction and ran it. -/
theorem cycle_next {c : Config} {run : Instr → State → Result} {s t : State}
    (h : cycle c run s = .next t) :
    s.pc.toNat + 1 < c.memSize ∧ ∃ i, fetched c s = some i ∧ run i s = .next t := by
  unfold cycle at h
  unfold fetched
  rcases fetch_cases c s with ⟨hb, hf⟩ | ⟨_, hf⟩
  · rw [hf] at h ⊢
    refine ⟨hb, ?_⟩
    dsimp only at h ⊢
    split at h
    · cases h
    · rename_i i hi
      exact ⟨i, hi, h⟩
  · rw [hf] at h; cases h

end Sys2Proof.Machine
end

