-- ==== Sys2Proof/Laws/Drawing.lean ====
section
/-! SUPPORT. What drawing a list of cells does to the framebuffer and to the collision flag. -/

namespace Sys2Proof.Machine

/-- The linear indices of a list of cells. -/
def indicesOf (c : Config) (ps : List (Nat × Nat)) : List Nat :=
  ps.map fun p => pixelIndex c p.1 p.2

/-- Drawing cells that are all different flips exactly those. -/
theorem foldl_drawPixel_cell (c : Config) (ps : List (Nat × Nat)) (b : Bool) (d : Display) (j : Nat)
    (h : (indicesOf c ps).Nodup) :
    ((ps.foldl (drawPixel c) (b, d)).2).cell j =
      (if j ∈ indicesOf c ps then !d.cell j else d.cell j) := by
  induction ps generalizing b d with
  | nil => simp [indicesOf]
  | cons p ps ih =>
    simp only [indicesOf, List.map_cons, List.nodup_cons] at h
    rw [List.foldl_cons, drawPixel, ih _ _ h.2, Display.cell_toggle]
    simp only [indicesOf, List.map_cons, List.mem_cons]
    by_cases hj : j = pixelIndex c p.1 p.2
    · have h1 := h.1
      rw [← hj] at h1
      simp [← hj, h1]
    · simp only [hj, if_false, false_or]

/-- The collision flag of drawing cells that are all different: some one was on before the draw. -/
theorem foldl_drawPixel_flag (c : Config) (ps : List (Nat × Nat)) (b : Bool) (d : Display)
    (h : (indicesOf c ps).Nodup) :
    (ps.foldl (drawPixel c) (b, d)).1 = (b || (indicesOf c ps).any fun i => d.cell i) := by
  induction ps generalizing b d with
  | nil => simp [indicesOf]
  | cons p ps ih =>
    simp only [indicesOf, List.map_cons, List.nodup_cons] at h
    rw [List.foldl_cons, drawPixel, ih _ _ h.2]
    simp only [indicesOf, List.map_cons, List.any_cons, Bool.or_assoc]
    congr 2
    rw [Bool.eq_iff_iff]
    simp only [List.any_eq_true]
    refine exists_congr fun i => and_congr_right fun hi => ?_
    have hne : i ≠ pixelIndex c p.1 p.2 := fun e => h.1 (e ▸ hi)
    rw [Display.cell_toggle, if_neg hne]

/-- Drawing cells the framebuffer has keeps its canonical form. -/
theorem wf_foldl_drawPixel {c : Config} (ps : List (Nat × Nat)) (b : Bool) {d : Display}
    (h : Display.wf c d) (hp : ∀ p ∈ ps, p.1 < c.fbWidth ∧ p.2 < c.fbHeight) :
    Display.wf c (ps.foldl (drawPixel c) (b, d)).2 := by
  induction ps generalizing b d with
  | nil => exact h
  | cons p ps ih =>
    rw [List.foldl_cons]
    refine ih _ (Display.wf_toggle h ?_) fun q hq => hp q (by simp [hq])
    obtain ⟨h1, h2⟩ := hp p (by simp)
    show p.2 * c.fbWidth + p.1 < c.fbWidth * c.fbHeight
    calc p.2 * c.fbWidth + p.1 < p.2 * c.fbWidth + c.fbWidth := by omega
      _ = c.fbWidth * (p.2 + 1) := by ring
      _ ≤ c.fbWidth * c.fbHeight := Nat.mul_le_mul_left _ h2

/-- Every cell `clip` or `wrap` draws is in the framebuffer. -/
theorem placePixel_inFrame {c : Config} {p q : Nat × Nat} (hw : 0 < c.fbWidth) (hh : 0 < c.fbHeight)
    (h : placePixel c p = some q) : q.1 < c.fbWidth ∧ q.2 < c.fbHeight := by
  unfold placePixel at h
  split at h
  · split at h
    · cases h
    · injection h with h
      subst h
      exact ⟨Nat.mod_lt _ hw, Nat.mod_lt _ hh⟩
    · cases h
  · rename_i ho
    injection h with h
    subst h
    simp only [outOfFrame, decide_eq_true_eq, not_or, not_le] at ho
    exact ho

/-- A draw keeps the framebuffer's canonical form. -/
theorem wf_drawPixels {c : Config} (ts : List (Nat × Nat)) {d : Display} (hw : 0 < c.fbWidth)
    (hh : 0 < c.fbHeight) (h : Display.wf c d) : Display.wf c (drawPixels c ts d).2 := by
  refine wf_foldl_drawPixel _ _ h fun q hq => ?_
  obtain ⟨p, _, hpq⟩ := List.mem_filterMap.mp hq
  exact placePixel_inFrame hw hh hpq

/-! The targets of a sprite. -/

theorem mem_spriteRow {vx py : Nat} {b : Byte} {p : Nat × Nat} :
    p ∈ spriteRow vx py b ↔ ∃ col, col < 8 ∧ b.getLsbD (7 - col) = true ∧ p = (vx + col, py) := by
  simp only [spriteRow, List.mem_filterMap, List.mem_range]
  refine exists_congr fun col => and_congr_right fun _ => ?_
  by_cases h : b.getLsbD (7 - col) = true
  · simp only [h, if_true, Option.some.injEq, true_and, eq_comm]
  · simp [h]

/-- The targets of a sprite are the set bits of its rows. -/
theorem mem_spriteCells {vx py : Nat} {bs : List Byte} {p : Nat × Nat} :
    p ∈ spriteCells vx py bs ↔ ∃ col row, col < 8 ∧ row < bs.length ∧
      (bs.getD row 0).getLsbD (7 - col) = true ∧ p = (vx + col, py + row) := by
  induction bs generalizing py with
  | nil => simp [spriteCells]
  | cons b bs ih =>
    simp only [spriteCells, List.mem_append, mem_spriteRow, ih, List.length_cons]
    constructor
    · rintro (⟨col, hc, hb, rfl⟩ | ⟨col, row, hc, hr, hb, rfl⟩)
      · exact ⟨col, 0, hc, by omega, by simpa using hb, rfl⟩
      · exact ⟨col, row + 1, hc, by omega, by simpa using hb, by simp; omega⟩
    · rintro ⟨col, row, hc, hr, hb, rfl⟩
      cases row with
      | zero => exact .inl ⟨col, hc, by simpa using hb, rfl⟩
      | succ row => exact .inr ⟨col, row, hc, by omega, by simpa using hb, by simp; omega⟩

/-- The targets of Dxyn are the cells its sprite covers. -/
theorem mem_spriteTargets {c : Config} {x y : Reg} {n : Nibble} {s : State} {px py : Nat} :
    (px, py) ∈ spriteTargets c x y n s ↔
      SpriteCovers c s (dataBase s) n.toNat (s.reg x).toNat (s.reg y).toNat px py := by
  simp only [spriteTargets, mem_spriteCells, SpriteCovers, Memory.length_readBytes, Prod.mk.injEq]
  refine exists_congr fun col => exists_congr fun row => and_congr_right fun _ => ?_
  refine and_congr_right fun hr => ?_
  have : (s.mem.readBytes c (dataBase s) n.toNat).getD row 0 = s.byteAt c (dataBase s + row) := by
    simp [Memory.readBytes, hr, State.byteAt]
  rw [this]; tauto

theorem nodup_spriteRow (vx py : Nat) (b : Byte) : (spriteRow vx py b).Nodup := by
  refine List.Nodup.filterMap (fun k k' p h h' => ?_) List.nodup_range
  simp only [Option.mem_def, Option.ite_none_right_eq_some, Option.some.injEq] at h h'
  have := h.2.trans h'.2.symm
  simp only [Prod.mk.injEq] at this; omega

/-- No target of a sprite comes twice. -/
theorem nodup_spriteCells (vx py : Nat) (bs : List Byte) : (spriteCells vx py bs).Nodup := by
  induction bs generalizing py with
  | nil => simp [spriteCells]
  | cons b bs ih =>
    refine (nodup_spriteRow vx py b).append (ih _) fun p h h' => ?_
    obtain ⟨_, _, _, rfl⟩ := mem_spriteRow.mp h
    obtain ⟨_, _, _, _, _, h⟩ := mem_spriteCells.mp h'
    simp only [Prod.mk.injEq] at h; omega

theorem pixelIndex_inj {c : Config} {p q : Nat × Nat} (hp : p.1 < c.fbWidth) (hq : q.1 < c.fbWidth)
    (h : pixelIndex c p.1 p.2 = pixelIndex c q.1 q.2) : p = q := by
  have hw : 0 < c.fbWidth := by omega
  have h1 := congrArg (· % c.fbWidth) h
  have h2 := congrArg (· / c.fbWidth) h
  simp only [pixelIndex, Nat.mul_comm _ c.fbWidth, Nat.mul_add_mod, Nat.mod_eq_of_lt hp,
    Nat.mod_eq_of_lt hq, Nat.mul_add_div hw, Nat.div_eq_of_lt hp, Nat.div_eq_of_lt hq,
    Nat.add_zero] at h1 h2
  exact Prod.ext h1 h2

/-- A placed target is the target with each coordinate reduced by the frame's size. -/
theorem placePixel_mod {c : Config} {p q : Nat × Nat} (h : placePixel c p = some q) :
    q = (p.1 % c.fbWidth, p.2 % c.fbHeight) := by
  unfold placePixel at h
  split at h
  · split at h <;> simp_all
  · rename_i ho
    simp only [outOfFrame, decide_eq_true_eq, not_or, not_le] at ho
    simp only [Option.some.injEq] at h
    rw [Nat.mod_eq_of_lt ho.1, Nat.mod_eq_of_lt ho.2, ← h]

theorem offset_mod_inj {a u v m k : Nat} (hu : u < k) (hv : v < k) (hk : k ≤ m)
    (h : (a + u) % m = (a + v) % m) : u = v := by
  have h' : u % m = v % m := Nat.ModEq.add_left_cancel' a h
  rwa [Nat.mod_eq_of_lt (by omega), Nat.mod_eq_of_lt (by omega)] at h'

/-- No framebuffer cell is touched twice by a draw, on a frame of the size R5 asks for. -/
theorem nodup_placed {c : Config} {x y : Reg} {n : Nibble} {s : State} (hw : 8 ≤ c.fbWidth)
    (hh : 15 ≤ c.fbHeight) :
    (indicesOf c ((spriteTargets c x y n s).filterMap (placePixel c))).Nodup := by
  have hin : ∀ q ∈ (spriteTargets c x y n s).filterMap (placePixel c), q.1 < c.fbWidth := by
    intro q hq
    obtain ⟨p, _, hpq⟩ := List.mem_filterMap.mp hq
    exact (placePixel_inFrame (by omega) (by omega) hpq).1
  refine List.Nodup.map_on (fun p hp q hq h => pixelIndex_inj (hin p hp) (hin q hq) h) ?_
  have hp : (spriteTargets c x y n s).Pairwise fun a b => a ≠ b ∧
      (∃ u v, u < 8 ∧ v < 15 ∧ a = ((s.reg x).toNat + u, (s.reg y).toNat + v)) ∧
      ∃ u v, u < 8 ∧ v < 15 ∧ b = ((s.reg x).toNat + u, (s.reg y).toNat + v) := by
    have key : ∀ a ∈ spriteTargets c x y n s, ∃ u v, u < 8 ∧ v < 15 ∧
        a = ((s.reg x).toNat + u, (s.reg y).toNat + v) := by
      intro a ha
      obtain ⟨u, v, hu, hv, _, rfl⟩ := mem_spriteCells.mp ha
      have := n.isLt
      rw [Memory.length_readBytes] at hv
      exact ⟨u, v, hu, by omega, rfl⟩
    refine List.Pairwise.imp_of_mem (fun ha hb h => ⟨h, key _ ha, key _ hb⟩) ?_
    exact nodup_spriteCells _ _ _
  refine List.Pairwise.filterMap _ (R := _) (fun a b hab p hp q hq => ?_) hp
  obtain ⟨hne, ⟨u, v, hu, hv, rfl⟩, u', v', hu', hv', rfl⟩ := hab
  rintro rfl
  have h := (placePixel_mod hp).symm.trans (placePixel_mod hq)
  simp only [Prod.mk.injEq] at h
  have h1 := offset_mod_inj hu hu' hw h.1
  have h2 := offset_mod_inj hv hv' hh h.2
  exact hne (by rw [h1, h2])

/-- The cells a draw touches under `clip`. -/
theorem mem_placed_clip {c : Config} {x y : Reg} {n : Nibble} {s : State} {px py : Nat}
    (hc : c.oobPolicy = .clip) (hx : px < c.fbWidth) (hy : py < c.fbHeight) :
    (px, py) ∈ (spriteTargets c x y n s).filterMap (placePixel c) ↔
      SpriteCovers c s (dataBase s) n.toNat (s.reg x).toNat (s.reg y).toNat px py := by
  rw [← mem_spriteTargets, List.mem_filterMap]
  constructor
  · rintro ⟨p, hp, h⟩
    unfold placePixel at h
    simp only [hc] at h
    split at h
    · cases h
    · injection h with h; exact h ▸ hp
  · intro h
    exact ⟨_, h, by simp [placePixel, outOfFrame, hx, hy]⟩

/-- The cells a draw touches under `wrap`. -/
theorem mem_placed_wrap {c : Config} {x y : Reg} {n : Nibble} {s : State} {px py : Nat}
    (hc : c.oobPolicy = .wrap) :
    (px, py) ∈ (spriteTargets c x y n s).filterMap (placePixel c) ↔
      SpriteWrapsOnto c s (dataBase s) n.toNat (s.reg x).toNat (s.reg y).toNat px py := by
  simp only [List.mem_filterMap, SpriteWrapsOnto, Prod.exists, mem_spriteTargets]
  refine exists_congr fun qx => exists_congr fun qy => and_congr_right fun _ => ?_
  unfold placePixel
  simp only [hc]
  split
  · simp [eq_comm]
  · rename_i ho
    simp only [outOfFrame, decide_eq_true_eq, not_or, not_le] at ho
    rw [Nat.mod_eq_of_lt ho.1, Nat.mod_eq_of_lt ho.2]
    simp [eq_comm]

/-- All a draw does to the cells and to the flag, where it touches no cell twice and `On` names the
cells it touches. -/
theorem composite_composited {c : Config} {ts : List (Nat × Nat)} {s : State}
    {On : Nat → Nat → Prop} (hw : 0 < c.fbWidth) (hh : 0 < c.fbHeight)
    (hnd : (indicesOf c (ts.filterMap (placePixel c))).Nodup)
    (hon : ∀ px py, px < c.fbWidth → py < c.fbHeight →
      ((px, py) ∈ ts.filterMap (placePixel c) ↔ On px py)) :
    Composited c On s (composite c ts s) := by
  have hin : ∀ q ∈ ts.filterMap (placePixel c), q.1 < c.fbWidth ∧ q.2 < c.fbHeight := by
    intro q hq
    obtain ⟨p, _, hpq⟩ := List.mem_filterMap.mp hq
    exact placePixel_inFrame hw hh hpq
  have hmem : ∀ px py, px < c.fbWidth → py < c.fbHeight →
      (pixelIndex c px py ∈ indicesOf c (ts.filterMap (placePixel c)) ↔ On px py) := by
    intro px py hx hy
    rw [← hon px py hx hy]
    constructor
    · intro h
      obtain ⟨q, hq, h⟩ := List.mem_map.mp h
      exact pixelIndex_inj (q := (px, py)) (hin q hq).1 hx h ▸ hq
    · exact fun h => List.mem_map.mpr ⟨_, h, rfl⟩
  have hcell : ∀ i, (composite c ts s).fb.cell i = if i ∈ indicesOf c (ts.filterMap (placePixel c))
      then !s.fb.cell i else s.fb.cell i := fun i => foldl_drawPixel_cell c _ false s.fb i hnd
  have hflag : (composite c ts s).reg 0xF =
      flagByte ((indicesOf c (ts.filterMap (placePixel c))).any fun i => s.fb.cell i) := by
    simp only [composite, State.setRedraw_reg, State.setFlag_reg, if_true]
    exact congrArg flagByte ((foldl_drawPixel_flag c _ false s.fb hnd).trans (Bool.false_or _))
  refine ⟨fun px py hx hy => ⟨fun h => ?_, fun h => ?_⟩, fun i hi => ?_, ?_, fun h => ?_⟩
  · exact (hcell _).trans (if_pos ((hmem px py hx hy).mpr h))
  · exact (hcell _).trans (if_neg (mt (hmem px py hx hy).mp h))
  · refine (hcell i).trans (if_neg fun h => ?_)
    obtain ⟨q, hq, rfl⟩ := List.mem_map.mp h
    have := hin q hq
    have : q.2 * c.fbWidth + q.1 < c.fbWidth * c.fbHeight := by nlinarith
    simp only [pixelIndex] at hi; omega
  · rintro ⟨px, py, hx, hy, ho, hp⟩
    rw [hflag, List.any_eq_true.mpr ⟨_, (hmem px py hx hy).mpr ho, hp⟩]; rfl
  · rw [hflag, List.any_eq_false.mpr fun i hi => ?_]
    · rfl
    · obtain ⟨q, hq, rfl⟩ := List.mem_map.mp hi
      obtain ⟨hx, hy⟩ := hin q hq
      rw [show s.fb.cell (pixelIndex c q.1 q.2) = false from h q.1 q.2 hx hy ((hon _ _ hx hy).mp hq)]
      exact Bool.false_ne_true

/-- A draw changes the framebuffer, `redraw` and `VF`. -/
theorem onlyChanged_composite (c : Config) (ts : List (Nat × Nat)) (s : State) :
    OnlyChanged c [0xF] [.framebuffer, .redraw] s (composite c ts s) :=
  ⟨fun q hq => by simp at hq; simp [composite, hq],
    fun k hk => by cases k <;> simp [Kept, composite] at hk ⊢, rfl⟩

end Sys2Proof.Machine
end

