-- ==== Sys2Proof/Laws/Encoding.lean ====
section
/-! SUPPORT. The fields of the words the encoder builds, and bytes against words. -/

namespace Sys2Proof

/-! Fields of a format A word. -/

@[simp] theorem majorField_wordA (m : Nibble) (nnn : Addr12) : majorField (wordA m nnn) = m := by
  ext i hi; interval_cases i <;> simp [majorField, wordA]

@[simp] theorem nnnField_wordA (m : Nibble) (nnn : Addr12) : nnnField (wordA m nnn) = nnn := by
  ext i hi; interval_cases i <;> simp [nnnField, wordA]

/-! Fields of a format RI or R word. -/

@[simp] theorem majorField_wordRI (m : Nibble) (x : Reg) (kk : Byte) :
    majorField (wordRI m x kk) = m := by
  ext i hi; interval_cases i <;> simp [majorField, wordRI]

@[simp] theorem xField_wordRI (m : Nibble) (x : Reg) (kk : Byte) : xField (wordRI m x kk) = x := by
  ext i hi; interval_cases i <;> simp [xField, wordRI]

@[simp] theorem kkField_wordRI (m : Nibble) (x : Reg) (kk : Byte) : kkField (wordRI m x kk) = kk := by
  ext i hi; interval_cases i <;> simp [kkField, wordRI]

/-! Fields of a format RR or RRN word. -/

@[simp] theorem majorField_wordRRN (m : Nibble) (x y : Reg) (n : Nibble) :
    majorField (wordRRN m x y n) = m := by
  ext i hi; interval_cases i <;> simp [majorField, wordRRN]

@[simp] theorem xField_wordRRN (m : Nibble) (x y : Reg) (n : Nibble) :
    xField (wordRRN m x y n) = x := by
  ext i hi; interval_cases i <;> simp [xField, wordRRN]

@[simp] theorem yField_wordRRN (m : Nibble) (x y : Reg) (n : Nibble) :
    yField (wordRRN m x y n) = y := by
  ext i hi; interval_cases i <;> simp [yField, wordRRN]

@[simp] theorem nField_wordRRN (m : Nibble) (x y : Reg) (n : Nibble) :
    nField (wordRRN m x y n) = n := by
  ext i hi; interval_cases i <;> simp [nField, wordRRN]

/-! Every word is the word of its own fields. -/

theorem wordA_fields (op : Word) : wordA (majorField op) (nnnField op) = op := by
  ext i hi; interval_cases i <;> simp [majorField, nnnField, wordA]

theorem wordRI_fields (op : Word) : wordRI (majorField op) (xField op) (kkField op) = op := by
  ext i hi; interval_cases i <;> simp [majorField, xField, kkField, wordRI]

theorem wordRRN_fields (op : Word) :
    wordRRN (majorField op) (xField op) (yField op) (nField op) = op := by
  ext i hi; interval_cases i <;> simp [majorField, xField, yField, nField, wordRRN]

/-! A word as its match value or-ed with its operands (R79); `w` is the match value. -/

theorem wordA_or {m : Nibble} {w : Word} (nnn : Addr12) (h : m.setWidth 16 <<< 12 = w) :
    wordA m nnn = w ||| nnn.setWidth 16 := by
  subst h; rfl

theorem wordRI_or {m : Nibble} {w : Word} (x : Reg) (kk : Byte) (h : m.setWidth 16 <<< 12 = w) :
    wordRI m x kk = w ||| (x.setWidth 16 <<< 8) ||| kk.setWidth 16 := by
  subst h; rfl

theorem wordR_or {m : Nibble} {kk : Byte} {w : Word} (x : Reg)
    (h : m.setWidth 16 <<< 12 ||| kk.setWidth 16 = w) :
    wordRI m x kk = w ||| (x.setWidth 16 <<< 8) := by
  subst h
  simp only [wordRI, BitVec.or_assoc]
  rw [BitVec.or_comm (kk.setWidth 16)]

theorem wordRR_or {m n : Nibble} {w : Word} (x y : Reg)
    (h : m.setWidth 16 <<< 12 ||| n.setWidth 16 = w) :
    wordRRN m x y n = w ||| (x.setWidth 16 <<< 8) ||| (y.setWidth 16 <<< 4) := by
  subst h
  simp only [wordRRN, BitVec.or_assoc]
  rw [BitVec.or_comm (n.setWidth 16), BitVec.or_assoc]

theorem wordRRN_or {m : Nibble} {w : Word} (x y : Reg) (n : Nibble)
    (h : m.setWidth 16 <<< 12 = w) :
    wordRRN m x y n = w ||| (x.setWidth 16 <<< 8) ||| (y.setWidth 16 <<< 4) ||| n.setWidth 16 := by
  subst h; rfl

/-! The fixed bits a mask keeps. -/

theorem wordA_mask (m : Nibble) (nnn : Addr12) : wordA m nnn &&& 0xF000 = m.setWidth 16 <<< 12 := by
  ext i hi; interval_cases i <;> simp [wordA]

theorem wordRI_mask (m : Nibble) (x : Reg) (kk : Byte) :
    wordRI m x kk &&& 0xF000 = m.setWidth 16 <<< 12 := by
  ext i hi; interval_cases i <;> simp [wordRI]

theorem wordRI_maskReg (m : Nibble) (x : Reg) (kk : Byte) :
    wordRI m x kk &&& 0xF0FF = m.setWidth 16 <<< 12 ||| kk.setWidth 16 := by
  ext i hi; interval_cases i <;> simp [wordRI]

theorem wordRRN_mask (m : Nibble) (x y : Reg) (n : Nibble) :
    wordRRN m x y n &&& 0xF000 = m.setWidth 16 <<< 12 := by
  ext i hi; interval_cases i <;> simp [wordRRN]

theorem wordRRN_maskRegReg (m : Nibble) (x y : Reg) (n : Nibble) :
    wordRRN m x y n &&& 0xF00F = m.setWidth 16 <<< 12 ||| n.setWidth 16 := by
  ext i hi; interval_cases i <;> simp [wordRRN]

/-! Bytes against words. -/

/-- The two bytes memory holds for a word fetch back as the word. -/
@[simp] theorem wordOfBytes_bytes (w : Word) :
    wordOfBytes (w.extractLsb' 8 8) (w.extractLsb' 0 8) = w := by
  apply BitVec.eq_of_toNat_eq
  have h := w.isLt
  simp only [wordOfBytes, BitVec.toNat_ofNat, BitVec.extractLsb'_toNat, Nat.shiftRight_eq_div_pow]
  omega

/-- A byte sequence that begins with a word's bytes decodes as the word does. -/
theorem decodeBytes_word (w : Word) (rest : List Byte) :
    decodeBytes (bytesOfWord w ++ rest) =
      match decode w with
      | some i => .ok (i, rest)
      | none => .error (.unknown w) := by
  cases h : decode w <;> simp [decodeBytes, bytesOfWord, h]

end Sys2Proof
end

