-- ==== Sys2Proof/Laws/Exec.lean ====
section
/-! SUPPORT. All an instruction that answers a next state can have done, one line per instruction:
its own effect, and the end of the cycle. -/

namespace Sys2Proof.Machine

/-- `t` is what `i` leaves of `s`: the instruction's own effect under the checks it passed, ended at
its next `pc`; or the wait. -/
def Ended (i : Instr) (s t : State) : Prop :=
  match i with
  | .cls => complete (s.pc + 2) ((s.setFb []).setRedraw true) = .next t
  | .ret => ∃ w l, s.stack = w :: l ∧ complete (w + 2) (s.setStack l) = .next t
  | .jp nnn => complete (addressOf nnn) s = .next t
  | .call nnn => s.stack.length < 16 ∧
      complete (addressOf nnn) (s.setStack (s.pc :: s.stack)) = .next t
  | .seImm x kk => complete (if s.reg x == kk then s.pc + 4 else s.pc + 2) s = .next t
  | .sneImm x kk => complete (if s.reg x != kk then s.pc + 4 else s.pc + 2) s = .next t
  | .seReg x y => complete (if s.reg x == s.reg y then s.pc + 4 else s.pc + 2) s = .next t
  | .ldImm x kk => complete (s.pc + 2) (s.setReg x kk) = .next t
  | .addImm x kk => complete (s.pc + 2)
      (s.setReg x (BitVec.ofNat 8 ((s.reg x).toNat + kk.toNat))) = .next t
  | .ldReg x y => complete (s.pc + 2) (s.setReg x (s.reg y)) = .next t
  | .orReg x y => complete (s.pc + 2) (s.setReg x (s.reg x ||| s.reg y)) = .next t
  | .andReg x y => complete (s.pc + 2) (s.setReg x (s.reg x &&& s.reg y)) = .next t
  | .xorReg x y => complete (s.pc + 2) (s.setReg x (s.reg x ^^^ s.reg y)) = .next t
  | .addReg x y => complete (s.pc + 2) (s.setRegAndFlag x
      (BitVec.ofNat 8 ((s.reg x).toNat + (s.reg y).toNat)) (carry (s.reg x) (s.reg y))) = .next t
  | .subReg x y => complete (s.pc + 2) (s.setRegAndFlag x
      (BitVec.ofNat 8 ((s.reg x).toNat + 256 - (s.reg y).toNat))
      (noBorrow (s.reg x) (s.reg y))) = .next t
  | .shr x _ => complete (s.pc + 2) (s.setRegAndFlag x
      (BitVec.ofNat 8 ((s.reg x).toNat / 2)) (lowBit (s.reg x))) = .next t
  | .subn x y => complete (s.pc + 2) (s.setRegAndFlag x
      (BitVec.ofNat 8 ((s.reg y).toNat + 256 - (s.reg x).toNat))
      (noBorrow (s.reg y) (s.reg x))) = .next t
  | .shl x _ => complete (s.pc + 2) (s.setRegAndFlag x
      (BitVec.ofNat 8 ((s.reg x).toNat * 2)) (highBit (s.reg x))) = .next t
  | .sneReg x y => complete (if s.reg x != s.reg y then s.pc + 4 else s.pc + 2) s = .next t
  | .ldI nnn => complete (s.pc + 2) (s.setIndex (addressOf nnn)) = .next t
  | .jpV0 nnn => complete (computedTarget nnn s) s = .next t
  | .rnd x kk => complete (s.pc + 2)
      ((s.setReg x (Config.rand8 s.draws &&& kk)).countDraw) = .next t
  | .drw x y n => (n.toNat = 0 ∨ dataBase s + n.toNat ≤ 4095) ∧
      complete (s.pc + 2)
        (composite Config.hw (spriteTargets Config.hw x y n s) s) = .next t
  | .skp x => complete (if s.key (selectedKey x s) then s.pc + 4 else s.pc + 2) s = .next t
  | .sknp x => complete (if !s.key (selectedKey x s) then s.pc + 4 else s.pc + 2) s = .next t
  | .ldVxDt x => complete (s.pc + 2) (s.setReg x s.dt) = .next t
  | .ldVxK x => (s.lowestKey = none ∧ t = s.setWaiting true) ∨
      ∃ k, s.lowestKey = some k ∧ complete (s.pc + 2) (s.setReg x (k.setWidth 8)) = .next t
  | .ldDtVx x => complete (s.pc + 2) (s.setDt (s.reg x)) = .next t
  | .ldStVx x => complete (s.pc + 2) (s.setSt (s.reg x)) = .next t
  | .addI x => complete (s.pc + 2) ((s.setIndex (BitVec.ofNat 16 (indexSum x s))).setFlag
      (indexOverflow (indexSum x s))) = .next t
  | .ldF x => complete (s.pc + 2) (s.setIndex (glyphAddress x s)) = .next t
  | .ldB x => dataBase s + 3 ≤ 4095 ∧ complete (s.pc + 2) (s.setMem
      (s.mem.writeBytes Config.hw (dataBase s) (decimalDigits (s.reg x)))) = .next t
  | .storeRegs x => dataBase s + (x.toNat + 1) ≤ 4095 ∧ complete (s.pc + 2)
      ((s.setMem (s.mem.writeBytes Config.hw (dataBase s) (regsUpTo x s))).setIndex
        (indexAfterBlock x s)) = .next t
  | .loadRegs x => dataBase s + (x.toNat + 1) ≤ 4095 ∧ complete (s.pc + 2)
      ((s.setRegsUpTo x fun k => s.byteAt Config.hw (dataBase s + k)).setIndex
        (indexAfterBlock x s)) = .next t

/-- An instruction that answers a next state answers the one `Ended` names. -/
theorem exec_next {i : Instr} {s t : State} (h : exec i s = .next t) : Ended i s t := by
  cases i
  case ret =>
    simp only [exec, execRet, ret] at h
    rcases pop_cases s with ⟨_, e⟩ | ⟨w, l, hs, e⟩ <;> rw [e] at h
    · cases h
    · exact ⟨w, l, hs, h⟩
  case call nnn =>
    simp only [exec, execCall, call] at h
    rcases push_cases Config.hw s.pc s with ⟨hs, e⟩ | ⟨_, e⟩ <;> rw [e] at h
    · exact ⟨hs, h⟩
    · cases h
  case ldVxK x =>
    simp only [exec, execLdVxK] at h
    cases hk : s.lowestKey <;> rw [hk] at h
    · exact .inl ⟨hk, wait_next h⟩
    · exact .inr ⟨_, hk, h⟩
  case drw x y n =>
    obtain ⟨hb, h⟩ := guardSpan_next h
    rw [if_neg (by simp)] at h
    exact ⟨hb, h⟩
  case ldB x =>
    obtain ⟨hb, h⟩ := guardSpan_next h
    rw [hw_memSize] at hb
    exact ⟨by omega, h⟩
  case storeRegs x =>
    obtain ⟨hb, h⟩ := guardSpan_next h
    rw [hw_memSize] at hb
    exact ⟨by omega, h⟩
  case loadRegs x =>
    obtain ⟨hb, h⟩ := guardSpan_next h
    rw [hw_memSize] at hb
    exact ⟨by omega, h⟩
  all_goals exact h

/-- A completed cycle meets the invariant where its effect and its next `pc` do. -/
theorem inv_complete {c : Config} {next : Word} {u t : State} (h : complete next u = .next t)
    (hm : Memory.wf c u.mem) (hf : Display.wf c u.fb) (hi : u.index.toNat ≤ 0x0FFF)
    (hp : next.toNat ≤ 4350) (hd : u.stack.length ≤ c.stackDepth)
    (hs : ∀ w ∈ u.stack, w.toNat + 1 < c.memSize) : Inv c t := by
  injection h with h
  subst h
  exact ⟨hm, hf, hi, hp, hd, hs, fun hw => by cases hw⟩

end Sys2Proof.Machine
end

