-- ==== Sys2Proof/Laws/PerInstr.lean ====
section
/-! SUPPORT. What holds of every instruction as syntax, one lemma per constructor: its word carries its
row's fixed bits under its row's mask (30_encoding.md R74, R75). -/

namespace Sys2Proof.Laws.RowWord

/-- The instruction's word matches its own row of the opcode map. -/
def Statement (i : Instr) : Prop := encode i &&& i.row.mask = i.row.bits

theorem cls : Statement (.cls) :=
  rfl

theorem ret : Statement (.ret) :=
  rfl

theorem jp (nnn : Addr12) : Statement (.jp nnn) :=
  (wordA_mask _ _).trans rfl

theorem call (nnn : Addr12) : Statement (.call nnn) :=
  (wordA_mask _ _).trans rfl

theorem seImm (x : Reg) (kk : Byte) : Statement (.seImm x kk) :=
  (wordRI_mask _ _ _).trans rfl

theorem sneImm (x : Reg) (kk : Byte) : Statement (.sneImm x kk) :=
  (wordRI_mask _ _ _).trans rfl

theorem seReg (x : Reg) (y : Reg) : Statement (.seReg x y) :=
  (wordRRN_maskRegReg _ _ _ _).trans rfl

theorem ldImm (x : Reg) (kk : Byte) : Statement (.ldImm x kk) :=
  (wordRI_mask _ _ _).trans rfl

theorem addImm (x : Reg) (kk : Byte) : Statement (.addImm x kk) :=
  (wordRI_mask _ _ _).trans rfl

theorem ldReg (x : Reg) (y : Reg) : Statement (.ldReg x y) :=
  (wordRRN_maskRegReg _ _ _ _).trans rfl

theorem orReg (x : Reg) (y : Reg) : Statement (.orReg x y) :=
  (wordRRN_maskRegReg _ _ _ _).trans rfl

theorem andReg (x : Reg) (y : Reg) : Statement (.andReg x y) :=
  (wordRRN_maskRegReg _ _ _ _).trans rfl

theorem xorReg (x : Reg) (y : Reg) : Statement (.xorReg x y) :=
  (wordRRN_maskRegReg _ _ _ _).trans rfl

theorem addReg (x : Reg) (y : Reg) : Statement (.addReg x y) :=
  (wordRRN_maskRegReg _ _ _ _).trans rfl

theorem subReg (x : Reg) (y : Reg) : Statement (.subReg x y) :=
  (wordRRN_maskRegReg _ _ _ _).trans rfl

theorem shr (x : Reg) (y : Reg) : Statement (.shr x y) :=
  (wordRRN_maskRegReg _ _ _ _).trans rfl

theorem subn (x : Reg) (y : Reg) : Statement (.subn x y) :=
  (wordRRN_maskRegReg _ _ _ _).trans rfl

theorem shl (x : Reg) (y : Reg) : Statement (.shl x y) :=
  (wordRRN_maskRegReg _ _ _ _).trans rfl

theorem sneReg (x : Reg) (y : Reg) : Statement (.sneReg x y) :=
  (wordRRN_maskRegReg _ _ _ _).trans rfl

theorem ldI (nnn : Addr12) : Statement (.ldI nnn) :=
  (wordA_mask _ _).trans rfl

theorem jpV0 (nnn : Addr12) : Statement (.jpV0 nnn) :=
  (wordA_mask _ _).trans rfl

theorem rnd (x : Reg) (kk : Byte) : Statement (.rnd x kk) :=
  (wordRI_mask _ _ _).trans rfl

theorem drw (x : Reg) (y : Reg) (n : Nibble) : Statement (.drw x y n) :=
  (wordRRN_mask _ _ _ _).trans rfl

theorem skp (x : Reg) : Statement (.skp x) :=
  (wordRI_maskReg _ _ _).trans rfl

theorem sknp (x : Reg) : Statement (.sknp x) :=
  (wordRI_maskReg _ _ _).trans rfl

theorem ldVxDt (x : Reg) : Statement (.ldVxDt x) :=
  (wordRI_maskReg _ _ _).trans rfl

theorem ldVxK (x : Reg) : Statement (.ldVxK x) :=
  (wordRI_maskReg _ _ _).trans rfl

theorem ldDtVx (x : Reg) : Statement (.ldDtVx x) :=
  (wordRI_maskReg _ _ _).trans rfl

theorem ldStVx (x : Reg) : Statement (.ldStVx x) :=
  (wordRI_maskReg _ _ _).trans rfl

theorem addI (x : Reg) : Statement (.addI x) :=
  (wordRI_maskReg _ _ _).trans rfl

theorem ldF (x : Reg) : Statement (.ldF x) :=
  (wordRI_maskReg _ _ _).trans rfl

theorem ldB (x : Reg) : Statement (.ldB x) :=
  (wordRI_maskReg _ _ _).trans rfl

theorem storeRegs (x : Reg) : Statement (.storeRegs x) :=
  (wordRI_maskReg _ _ _).trans rfl

theorem loadRegs (x : Reg) : Statement (.loadRegs x) :=
  (wordRI_maskReg _ _ _).trans rfl

end Sys2Proof.Laws.RowWord
end

