-- ==== Sys2Proof/Laws/Transactions.lean ====
section
/-! SUPPORT. What a host's transaction replies, which replies end a run, and a run one transaction at a
time. -/

namespace Sys2Proof.Machine

/-! The `Step` transaction, by what the step answered. -/

theorem transact_step_next {s t : State} (h : step s = .next t) :
    transact .step s =
      (t, if t.waiting then .waiting else .done (decide (s.beeps < t.beeps))) := by
  simp only [transact, h]

theorem transact_step_fault {s : State} {f : Fault} (h : step s = .fault f) :
    transact .step s = (s, .fault f) := by
  simp only [transact, h]

/-- The beep bit of a completed cycle: whether its tick found the sound timer at 2. -/
theorem TickedFrom.beeped {dt0 st0 : Byte} {s t : State} (h : TickedFrom dt0 st0 s t) :
    decide (s.beeps < t.beeps) = decide (st0 = 2) := by
  rw [h.2.2]
  split <;> simp_all

/-- A transaction whose reply ends the run leaves the state as it found it. -/
theorem transact_endsRun {a : Transaction} {s : State} (h : (transact a s).2.endsRun = true) :
    (transact a s).1 = s := by
  cases a with
  | step =>
    cases hs : step s with
    | next t => rw [transact_step_next hs] at h; dsimp only at h; split at h <;> cases h
    | fault f => rw [transact_step_fault hs]
    | refused r => simp only [transact, hs]
  | load bytes =>
    simp only [transact] at h ⊢
    split at h <;> simp_all [Reply.endsRun]
  | keyUpdate k p =>
    simp only [transact] at h
    split at h <;> cases h
  | frameQuery i =>
    simp only [transact] at h
    split at h <;> cases h
  | redrawPending => cases h
  | clearRedraw => cases h

/-! A run, one transaction at a time. -/

@[simp] theorem hostRun_nil (s : State) :
    hostRun [] s = { state := s, replies := [], failed := false } := rfl

theorem hostRun_ends {a : Transaction} {s : State} (l : List Transaction)
    (h : (transact a s).2.endsRun = true) :
    hostRun (a :: l) s = { state := s, replies := [(transact a s).2], failed := true } := by
  simp only [hostRun, h, if_true, transact_endsRun h]

theorem hostRun_goesOn {a : Transaction} {s : State} (l : List Transaction)
    (h : (transact a s).2.endsRun = false) :
    hostRun (a :: l) s = { hostRun l (transact a s).1 with
      replies := (transact a s).2 :: (hostRun l (transact a s).1).replies } := by
  simp only [hostRun, h]
  rfl

end Sys2Proof.Machine
end

