-- ==== Sys2Proof/Tests/Slice0.lean ====
section
/-! SUPPORT. Tests: every expected value is the spec's (30_encoding.md R75, R79, or a named vector of
95_test_vectors.md), and for each statement with hypotheses a state and operands that meet them. -/

namespace Sys2Proof.Tests

open Sys2Proof Sys2Proof.Machine

/-- `s` about to run the word `w` at `pc` = 0x200. -/
def holding (w : Nat) (s : State) : State := (s.setPc 0x200).withFetchWord 16 w

/-- The state after one step from `holding w s`, if the step completes or waits. -/
def ran (w : Nat) (s : State) : Option State := nextOf (step (holding w s))

/-- What a test looks at in the state after `ran w s`. -/
def seen {α : Type} (w : Nat) (s : State) (f : State → α) : Option α := (ran w s).map f

/-- Construction with V[0] = a and V[1] = b. -/
def regs2 (a b : Byte) : State := (State.reset.setReg 0 a).setReg 1 b

/-- `s` with bytes put from address `a`. -/
def withBytes (a : Nat) (bs : List Byte) (s : State) : State :=
  s.setMem (s.mem.writeBytes Config.hw a bs)

/-- Construction with sprite bytes at 0x300, `I` there, V[0] = a, V[1] = b. -/
def sprite (bs : List Byte) (a b : Byte) : State := withBytes 0x300 bs ((regs2 a b).setIndex 0x300)

/-- This hardware under another policy of R153. -/
def policy (p : OobPolicy) : Config := { Config.hw with oobPolicy := p }

/-! Decoding: one word per constructor, written from the pattern column of R75. -/

/-- R75, groups 0 to 2, A, B. -/
theorem test_decode_flow :
    decode 0x00E0 = some .cls ∧ decode 0x00EE = some .ret ∧ decode 0x1204 = some (.jp 0x204) ∧
    decode 0x220A = some (.call 0x20A) ∧ decode 0xA300 = some (.ldI 0x300) ∧
    decode 0xB5F1 = some (.jpV0 0x5F1) := by decide

/-- R75, groups 3 to 7 and 9. -/
theorem test_decode_immediate :
    decode 0x3A12 = some (.seImm 0xA 0x12) ∧ decode 0x4308 = some (.sneImm 3 0x08) ∧
    decode 0x5240 = some (.seReg 2 4) ∧ decode 0x6A2F = some (.ldImm 0xA 0x2F) ∧
    decode 0x71FF = some (.addImm 1 0xFF) ∧ decode 0x9AB0 = some (.sneReg 0xA 0xB) := by decide

/-- R75, group 8; the y field of the shifts is decoded (R77). -/
theorem test_decode_alu :
    decode 0x8120 = some (.ldReg 1 2) ∧ decode 0x8341 = some (.orReg 3 4) ∧
    decode 0x8562 = some (.andReg 5 6) ∧ decode 0x8783 = some (.xorReg 7 8) ∧
    decode 0x8374 = some (.addReg 3 7) ∧ decode 0x8BC5 = some (.subReg 0xB 0xC) ∧
    decode 0x8126 = some (.shr 1 2) ∧ decode 0x8DE7 = some (.subn 0xD 0xE) ∧
    decode 0x812E = some (.shl 1 2) := by decide

/-- R75, groups C, D, E. -/
theorem test_decode_draw_keys :
    decode 0xC1F0 = some (.rnd 1 0xF0) ∧ decode 0xD7A5 = some (.drw 7 0xA 5) ∧
    decode 0xE19E = some (.skp 1) ∧ decode 0xE2A1 = some (.sknp 2) := by decide

/-- R75, group F. -/
theorem test_decode_misc :
    decode 0xF407 = some (.ldVxDt 4) ∧ decode 0xF50A = some (.ldVxK 5) ∧
    decode 0xF315 = some (.ldDtVx 3) ∧ decode 0xF618 = some (.ldStVx 6) ∧
    decode 0xF21E = some (.addI 2) ∧ decode 0xFA29 = some (.ldF 0xA) ∧
    decode 0xF033 = some (.ldB 0) ∧ decode 0xF255 = some (.storeRegs 2) ∧
    decode 0xF165 = some (.loadRegs 1) := by decide

/-- Unknown words, at least one in each group of R76, from 95_test_vectors.md 2.1. -/
theorem test_decode_unknown :
    decode 0x0000 = none ∧ decode 0x01E0 = none ∧ decode 0x0FEE = none ∧ decode 0x512F = none ∧
    decode 0x9AB1 = none ∧ decode 0x8008 = none ∧ decode 0x800F = none ∧ decode 0x812D = none ∧
    decode 0xE100 = none ∧ decode 0xF000 = none ∧ decode 0xF166 = none ∧ decode 0xFFFF = none := by
  decide

/-- Field extraction (95_test_vectors.md 2.1), and two bytes against one. -/
theorem test_fields_and_bytes :
    (majorField 0xD7A5, xField 0xD7A5, yField 0xD7A5, nField 0xD7A5, kkField 0xD7A5,
      nnnField 0xD7A5) = (0xD#4, 7#4, 0xA#4, 5#4, 0xA5#8, 0x7A5#12) ∧
    decodeBytes [0xD7, 0xA5, 0x12] = .ok (.drw 7 0xA 5, [0x12]) ∧
    decodeBytes [0x12] = .error .truncated ∧
    decodeBytes [0x80, 0x08] = .error (.unknown 0x8008) := by decide

/-- Assembling (95_test_vectors.md 2.1). -/
theorem test_encode :
    encode (.addReg 3 7) = 0x8374 ∧ encode (.drw 1 2 5) = 0xD125 ∧ encode (.ldImm 0xA 0x2F) = 0x6A2F ∧
    encode (.jp 0x204) = 0x1204 ∧ encode (.storeRegs 0xF) = 0xFF55 := by decide

/-! Well-formedness: an ill-formed term for each check, refused. -/

/-- Each operand number out of its field is rejected, in every format that has it (R79). -/
theorem test_wellformed_operands :
    assemble .addReg { x := 16 } = none ∧ assemble .addReg { y := 16 } = none ∧
    assemble .drw { x := 16 } = none ∧ assemble .drw { y := 16 } = none ∧
    assemble .drw { n := 16 } = none ∧ assemble .ldImm { x := 16 } = none ∧
    assemble .ldImm { kk := 256 } = none ∧ assemble .jp { nnn := 4096 } = none ∧
    assemble .ldF { x := 16 } = none ∧
    assemble .drw { x := 15, y := 15, n := 15 } = some (.drw 15 15 15) ∧
    assemble .cls { x := 16 } = some .cls := by decide

/-- Each constraint of R5, broken alone, is refused; this hardware meets them all. -/
theorem test_wellformed_config :
    Config.hw.wellFormed = true ∧
    { Config.hw with memSize := 4096 }.wellFormed = false ∧
    { Config.hw with memSize := 0x201 }.wellFormed = false ∧
    { Config.hw with textOffset := 0x201 }.wellFormed = false ∧
    { Config.hw with textOffset := 78 }.wellFormed = false ∧
    { Config.hw with fbWidth := 7 }.wellFormed = false ∧
    { Config.hw with fbHeight := 14 }.wellFormed = false ∧
    { Config.hw with glyphs := [0xF0] }.wellFormed = false ∧
    { Config.hw with stackDepth := 0 }.wellFormed = false := by decide

/-! Control transfer (95_test_vectors.md 2.2). -/

/-- F1, F3: an odd target is accepted. -/
theorem test_jp : seen 0x1203 State.reset (·.pc) = some 0x203 := by decide
/-- F4: the CALL's own address is pushed. -/
theorem test_call :
    seen 0x220A State.reset (fun t => (t.pc, t.stack)) = some (0x20A, [0x200]) := by decide
/-- F7: a full stack. -/
theorem test_call_overflow :
    faultOf (step (holding 0x2300 (State.reset.setStack (List.replicate 16 0x204)))) =
      some (.stackOverflow 0x200) := by decide
/-- F5: 2 is added to the popped address. -/
theorem test_ret :
    seen 0x00EE (State.reset.setStack [0x204]) (fun t => (t.pc, t.stack)) = some (0x206, []) := by
  decide
/-- F6: an empty stack. -/
theorem test_ret_underflow :
    faultOf (step (holding 0x00EE State.reset)) = some (.stackUnderflow 0x200) := by decide
/-- F8, F9. -/
theorem test_seImm :
    seen 0x3100 State.reset (·.pc) = some 0x204 ∧
    seen 0x3100 (regs2 0 1) (·.pc) = some 0x202 := by decide
/-- F10, F11. -/
theorem test_sneImm :
    seen 0x4108 (regs2 0 7) (·.pc) = some 0x204 ∧
    seen 0x4107 (regs2 0 7) (·.pc) = some 0x202 := by decide
/-- F13, F14. -/
theorem test_seReg :
    seen 0x5010 (regs2 1 2) (·.pc) = some 0x202 ∧
    seen 0x5110 (regs2 1 2) (·.pc) = some 0x204 := by decide
/-- F15, F16. -/
theorem test_sneReg :
    seen 0x9010 (regs2 1 2) (·.pc) = some 0x204 ∧
    seen 0x9110 (regs2 1 2) (·.pc) = some 0x202 := by decide
/-- F18: no wrap at 4096, and the next fetch faults. -/
theorem test_jpV0 :
    seen 0xBFFF (regs2 0xFF 0) (fun t => (t.pc, faultOf (step t))) =
      some (0x10FE, some (.fetchOutOfBounds 0x10FE)) := by decide

/-! Register load, arithmetic, logic, shift (95_test_vectors.md 2.3). -/

/-- A1. -/
theorem test_ldImm : seen 0x602F State.reset (·.reg 0) = some 0x2F := by decide
/-- A2, with VF = 7 before. -/
theorem test_addImm :
    seen 0x700A ((regs2 250 0).setReg 0xF 7) (fun t => (t.reg 0, t.reg 0xF)) = some (4, 7) := by
  decide
/-- A5. -/
theorem test_ldReg : seen 0x8010 (regs2 1 9) (fun t => (t.reg 0, t.reg 1)) = some (9, 9) := by decide
/-- A6. -/
theorem test_orReg : seen 0x8011 (regs2 0xF0 0x0F) (·.reg 0) = some 0xFF := by decide
/-- A7. -/
theorem test_andReg : seen 0x8012 (regs2 0xF0 0x3C) (·.reg 0) = some 0x30 := by decide
/-- A8. -/
theorem test_xorReg : seen 0x8013 (regs2 0xF0 0x3C) (·.reg 0) = some 0xCC := by decide
/-- A9, and A13 with VF = 7 before. -/
theorem test_addReg :
    seen 0x8014 (regs2 250 10) (fun t => (t.reg 0, t.reg 0xF)) = some (4, 1) ∧
    seen 0x8014 ((regs2 0 0).setReg 0xF 7) (fun t => (t.reg 0, t.reg 0xF)) = some (0, 0) := by decide
/-- A51: the flag is written last. -/
theorem test_addReg_flag_last :
    seen 0x8F14 ((regs2 0 2).setReg 0xF 1) (·.reg 0xF) = some 0 := by decide
/-- A15, A17. -/
theorem test_subReg :
    seen 0x8015 (regs2 5 10) (fun t => (t.reg 0, t.reg 0xF)) = some (251, 0) ∧
    seen 0x8015 (regs2 7 7) (fun t => (t.reg 0, t.reg 0xF)) = some (0, 1) := by decide
/-- A21: V[1] neither read nor written. -/
theorem test_shr :
    seen 0x8016 (regs2 0x81 0x55) (fun t => (t.reg 0, t.reg 1, t.reg 0xF)) =
      some (0x40, 0x55, 1) := by decide
/-- A54. -/
theorem test_shr_flag_register : seen 0x8F16 (State.reset.setReg 0xF 3) (·.reg 0xF) = some 1 := by
  decide
/-- A26, A27. -/
theorem test_subn :
    seen 0x8017 (regs2 3 10) (fun t => (t.reg 0, t.reg 0xF)) = some (7, 1) ∧
    seen 0x8017 (regs2 10 3) (fun t => (t.reg 0, t.reg 0xF)) = some (249, 0) := by decide
/-- A31, A33. -/
theorem test_shl :
    seen 0x801E (regs2 0x81 0x55) (fun t => (t.reg 0, t.reg 1, t.reg 0xF)) = some (0x02, 0x55, 1) ∧
    seen 0x801E (regs2 0x40 9) (fun t => (t.reg 0, t.reg 0xF)) = some (0x80, 0) := by decide
/-- Cxkk with kk = 0: 0 whatever byte is drawn. -/
theorem test_rnd : ∃ t, exec (.rnd 1 0) State.reset = .next t ∧ t.reg 1 = 0 ∧ t.draws = 1 :=
  ⟨_, rfl, BitVec.and_zero, rfl⟩
/-- R133: kk = 0xFF gives the byte drawn for this execution, and the next execution draws its own. -/
theorem test_rnd_draws : ∃ t u, exec (.rnd 1 0xFF) State.reset = .next t ∧
    exec (.rnd 2 0xFF) t = .next u ∧ u.reg 1 = Config.rand8 0 ∧ u.reg 2 = Config.rand8 1 :=
  ⟨_, _, rfl, rfl, BitVec.and_allOnes, BitVec.and_allOnes⟩

/-! Index register and memory (95_test_vectors.md 2.4). -/

/-- M2: the address is only named. -/
theorem test_ldI : seen 0xAFFF State.reset (·.index) = some 0xFFF := by decide
/-- M4, M5. -/
theorem test_addI :
    seen 0xF11E ((regs2 0 1).setIndex 0xFFF) (fun t => (t.index, t.reg 0xF)) = some (0, 1) ∧
    seen 0xF11E ((regs2 0 1).setIndex 0xFFE) (fun t => (t.index, t.reg 0xF)) = some (0xFFF, 0) := by
  decide
/-- M8: the old VF is the addend. -/
theorem test_addI_flag_register :
    seen 0xFF1E ((State.reset.setReg 0xF 1).setIndex 0xFFE) (fun t => (t.index, t.reg 0xF)) =
      some (0xFFF, 0) := by decide
/-- M14: no nibble mask. -/
theorem test_ldF :
    seen 0xF129 (regs2 0 0x10) (·.index) = some 80 ∧
    seen 0xF129 (regs2 0 0xFF) (·.index) = some 1275 := by decide
/-- M15, M16. -/
theorem test_ldB :
    seen 0xF033 ((regs2 128 0).setIndex 0x300) (fun t =>
      ((List.range 3).map fun k => t.byteAt Config.hw (0x300 + k), t.index)) =
      some ([1, 2, 8], 0x300) ∧
    seen 0xF033 ((regs2 255 0).setIndex 0xFFC) (·.byteAt Config.hw 0xFFE) = some 5 := by decide
/-- M17: no partial store. -/
theorem test_ldB_fault :
    (transact .step (holding 0xF033 ((regs2 255 0).setIndex 0xFFD))) =
      (holding 0xF033 ((regs2 255 0).setIndex 0xFFD), .fault (.memOutOfBounds 0xFFF)) := by decide
/-- M9. -/
theorem test_storeRegs :
    seen 0xF255 (((regs2 1 2).setReg 2 3).setIndex 0x400) (fun t =>
      ((List.range 4).map fun k => t.byteAt Config.hw (0x400 + k), t.index)) =
      some ([1, 2, 3, 0], 0x403) := by decide
/-- M19. -/
theorem test_storeRegs_fault :
    faultOf (step (holding 0xF155 (State.reset.setIndex 0xFFE))) = some (.memOutOfBounds 0xFFF) := by
  decide
/-- M11's load; V[3] stays. -/
theorem test_loadRegs :
    seen 0xF265 (withBytes 0x400 [1, 2, 3, 4] ((State.reset.setReg 3 9).setIndex 0x400)) (fun t =>
      ((List.range 4).map fun k => t.reg (BitVec.ofNat 4 k), t.index)) =
      some ([1, 2, 3, 9], 0x403) := by decide
/-- M21, M22. -/
theorem test_loadRegs_end :
    seen 0xFE65 (State.reset.setIndex 0xFF0) (·.index) = some 0xFFF ∧
    faultOf (step (holding 0xFF65 (State.reset.setIndex 0xFF0))) = some (.memOutOfBounds 0xFFF) := by
  decide

/-! Display (95_test_vectors.md 2.5); a cell (column, row) is index row * 64 + column. -/

/-- G1. -/
theorem test_cls :
    seen 0x00E0 (State.reset.setFb [195]) (fun t => (t.fb, t.redraw)) = some ([], true) := by decide
/-- G3; G4: one bit collided, one did not; G10; G8: the column is the old VF; G7; G17. -/
theorem test_drw :
    seen 0xD012 (sprite [0xF0, 0x90] 5 2) (fun t => (t.fb, t.reg 0xF, t.redraw)) =
      some ([133, 134, 135, 136, 197, 200], 0, true) ∧
    seen 0xD011 ((sprite [0xC0] 0 0).setFb [0]) (fun t => (t.fb, t.reg 0xF)) = some ([1], 1) ∧
    seen 0xD013 (sprite [0xFF, 0x81, 0xFF] 60 30) (fun t => (t.fb, t.reg 0xF)) =
      some ([1980, 1981, 1982, 1983, 2044], 0) ∧
    seen 0xDF11 ((sprite [0x80] 0 1).setReg 0xF 3) (fun t => (t.fb, t.reg 0xF)) =
      some ([67], 0) ∧
    seen 0xD010 ((State.reset.setReg 0xF 1).setIndex 0xFFF) (fun t => (t.fb, t.reg 0xF, t.redraw)) =
      some ([], 0, true) ∧
    faultOf (step (holding 0xD01F (State.reset.setIndex 0xFF1))) = some (.memOutOfBounds 0xFFF) := by
  decide
/-- G11, G15 under `wrap`; G12 and L9 under `fault`: the memory check comes first. -/
theorem test_drw_policies :
    (nextOf (drawSprite (policy .wrap) 0 1 3 (sprite [0xFF, 0x81, 0xFF] 60 30))).map
      (fun t => (t.fb, t.reg 0xF)) =
      some ([0, 1, 2, 3, 60, 61, 62, 63] ++
        [1920, 1921, 1922, 1923, 1980, 1981, 1982, 1983, 1987, 2044], 0) ∧
    (nextOf (drawSprite (policy .wrap) 0 1 1 (sprite [0xFF] 250 33))).map (·.fb) =
      some [64, 65, 122, 123, 124, 125, 126, 127] ∧
    faultOf (drawSprite (policy .fault) 0 1 3 (sprite [0xFF, 0x81, 0xFF] 60 30)) =
      some (.spriteOutOfFrame 0) ∧
    faultOf (drawSprite (policy .fault) 0 1 15 ((regs2 60 0).setIndex 0xFF8)) =
      some (.memOutOfBounds 0xFFF) := by decide

/-! Keys and timers (95_test_vectors.md 2.6). -/

/-- K5 and K2. -/
theorem test_skp :
    seen 0xE09E ((regs2 0x13 0).setKey 3 true) (·.pc) = some 0x204 ∧
    seen 0xE09E (regs2 3 0) (·.pc) = some 0x202 := by decide
/-- K3 and K4. -/
theorem test_sknp :
    seen 0xE0A1 (regs2 3 0) (·.pc) = some 0x204 ∧
    seen 0xE0A1 ((regs2 3 0).setKey 3 true) (·.pc) = some 0x202 := by decide
/-- K6: only `waiting` changes, no tick. -/
theorem test_ldVxK_waits :
    transact .step (holding 0xF00A (State.reset.setDt 5)) =
      ((holding 0xF00A (State.reset.setDt 5)).setWaiting true, .waiting) := by decide
/-- K7, with `waiting` set before. -/
theorem test_ldVxK :
    seen 0xF00A (((State.reset.setKey 3 true).setKey 7 true).setWaiting true)
      (fun t => (t.reg 0, t.pc, t.waiting)) = some (3, 0x202, false) := by decide
/-- K10, K11. -/
theorem test_ldVxDt :
    seen 0xF407 (State.reset.setDt 2) (fun t => (t.reg 4, t.dt)) = some (2, 1) ∧
    seen 0xF407 State.reset (fun t => (t.reg 4, t.dt)) = some (0, 0) := by decide
/-- K12. -/
theorem test_ldDtVx :
    seen 0xF015 (regs2 3 0) (·.dt) = some 2 ∧ seen 0xF015 (regs2 0 0) (·.dt) = some 0 := by decide
/-- K14, K13. -/
theorem test_ldStVx :
    (transact .step (holding 0xF018 (regs2 2 0))).2 = .done true ∧
    (transact .step (holding 0xF018 (regs2 1 0))).2 = .done false ∧
    seen 0xF018 (regs2 3 0) (·.st) = some 2 := by decide

/-! Cycle, load, reset, host transactions (95_test_vectors.md 2.6, 2.7). -/

/-- L1, L5. -/
theorem test_reset :
    (List.range 5).map (State.reset.byteAt Config.hw) = [0xF0, 0x90, 0x90, 0x90, 0xF0] ∧
    State.reset.byteAt Config.hw 79 = 0x80 ∧ State.reset.byteAt Config.hw 80 = 0 ∧
    faultOf (step State.reset) = some (.unknownOpcode 0xF090) := by decide
/-- L8 and F20: the largest pc that fetches is 0xFFD. -/
theorem test_fetch_bounds :
    faultOf (step (State.reset.setPc 0xFFE)) = some (.fetchOutOfBounds 0xFFE) ∧
    faultOf (step (State.reset.setPc 0xFFD)) = some (.unknownOpcode 0) := by decide
/-- L7. -/
theorem test_load_clears_waiting :
    (match load Config.hw [0x60, 0x01] ((holding 0xF00A State.reset).setWaiting true) with
      | .ok t => some (t.waiting, t.pc, (nextOf (step t)).map (·.reg 0))
      | .error _ => none) = some (false, 0x200, some 1) := by decide
/-- L2: 3584 bytes do not fit. -/
theorem test_load_too_large (bs : List Byte) (h : bs.length = 3584) :
    load Config.hw bs State.reset = .error (.tooLarge 3584) := by
  simp [load, h]
/-- K17, K18. -/
theorem test_keyUpdate :
    ((transact (.keyUpdate 2 true) State.reset).1.key 2,
      (transact (.keyUpdate 2 true) State.reset).1.key 3) = (true, false) ∧
    transact (.keyUpdate 16 true) State.reset = (State.reset, .callerError .indexOutOfRange) := by
  decide
/-- G18, G19, G20. -/
theorem test_frame :
    (transact (.frameQuery 133) (State.reset.setFb [133])).2 = .bit true ∧
    (transact (.frameQuery 134) (State.reset.setFb [133])).2 = .bit false ∧
    (transact (.frameQuery 2048) State.reset).2 = .callerError .indexOutOfRange ∧
    (transact .redrawPending (State.reset.setRedraw true)).2 = .bit true ∧
    (transact .clearRedraw (State.reset.setRedraw true)).1 = State.reset := by decide
/-- R170: the codes and severities. -/
theorem test_codes :
    (Reply.fault (.fetchOutOfBounds 0)).code = some 1 ∧ (Reply.fault (.unknownOpcode 0)).code = some 2 ∧
    (Reply.fault (.stackOverflow 0)).code = some 3 ∧ (Reply.fault (.stackUnderflow 0)).code = some 4 ∧
    (Reply.fault (.memOutOfBounds 0)).code = some 5 ∧
    (Reply.fault (.spriteOutOfFrame 0)).code = some 6 ∧
    (Reply.loadFailed (.tooLarge 0)).code = some 7 ∧ (Reply.loadFailed .unreadable).code = some 8 ∧
    (Reply.callerError .indexOutOfRange).code = some 9 ∧
    (Reply.callerError .indexOutOfRange).severity = some .callerError ∧
    (Reply.loadFailed (.tooLarge 0)).severity = some .fatal := by decide
/-- The fault program 00 EE: the run ends at its second transaction, and the load after it is not
made; a caller error ends no run. -/
theorem test_run_fails :
    (hostRun [.load [0x00, 0xEE], .step, .load []] State.reset).replies =
      [.ok, .fault (.stackUnderflow 0x200)] ∧
    (hostRun [.load [0x00, 0xEE], .step, .load []] State.reset).failed = true ∧
    (hostRun [.keyUpdate 16 true, .load []] State.reset).replies =
      [.callerError .indexOutOfRange, .ok] ∧
    (hostRun [.keyUpdate 16 true, .load []] State.reset).failed = false := by decide
/-- The first five transactions of P4 after its load: a wait, keys, and the step that commits. -/
theorem test_run_interleaved :
    let r := hostRun [.load [0xF0, 0x0A], .step, .keyUpdate 7 true, .keyUpdate 3 true, .step]
      State.reset
    r.replies = [.ok, .waiting, .none, .none, .done false] ∧ r.failed = false ∧
    r.state.reg 0 = 3 ∧ r.state.pc = 0x202 := by decide
/-- The host's two functions: the table's word runs as the first instruction after reset. -/
theorem test_table_word :
    decodeTableWord 16 0x6A2F = some (.ldImm 0xA 0x2F) ∧ decodeTableWord 16 0x8008 = none ∧
    (nextOf (step (State.reset.withFetchWord 16 0x6A2F))).map (·.reg 0xA) = some 0x2F ∧
    (nextOf (step ((State.reset.setPc 0xFFE).withFetchWord 16 0x6A2F))).map (·.pc) =
      some 0x202 := by decide

/-! Witnesses: for each statement with hypotheses, a state and operands that meet them, for each
clause at a boundary of its range. -/

/-- A state whose next word is `w`, at the last fetchable address but one. -/
def nearEnd (w : Nat) : State := (State.reset.setPc 0xFFC).withFetchWord 16 w

/-- `EncodeUndoesDecode`. -/
theorem test_witness_encodeUndoesDecode : decode 0xDFFF = some (.drw 0xF 0xF 0xF) := by decide

/-- `DecodeSelectsTheMatchingRow`: both sides of both equivalences are met. -/
theorem test_witness_decodeSelects :
    (0x9AB0 : Word) &&& Row.sneReg.mask = Row.sneReg.bits ∧ decodeRow 0x9AB0 = some .sneReg ∧
    decode 0x9AB1 = none ∧ ∀ r ∈ Row.all, (0x9AB1 : Word) &&& r.mask ≠ r.bits := by decide

/-- `UnknownWordsAreTheSixGroups`: one word of each group. -/
theorem test_witness_unknownGroups :
    decode 0x00EF = none ∧ decode 0x5FFF = none ∧ decode 0x8FFF = none ∧ decode 0x9FFF = none ∧
    decode 0xEF9F = none ∧ decode 0xFF66 = none := by decide

/-- `AssemblerFitsOrRejects`: both clauses, at the last number that fits and the first that does not. -/
theorem test_witness_assembler :
    ({ x := 15, kk := 255 } : RawOperands).fit Row.ldImm.format = true ∧
    ({ x := 15, kk := 256 } : RawOperands).fit Row.ldImm.format = false := by decide

/-- `StepRunsTheDecodedInstruction`: the last `pc` that fetches. -/
theorem test_witness_stepRuns :
    let s := (State.reset.setPc 0xFFD).withFetchWord 16 0x6A2F
    s.pc.toNat + 1 < 4095 ∧
    (0x6A2F : Word).toNat = (s.byteAt Config.hw s.pc.toNat).toNat * 256 +
      (s.byteAt Config.hw (s.pc.toNat + 1)).toNat ∧
    decode 0x6A2F = some (.ldImm 0xA 0x2F) := by decide

/-- `FetchBeyondMemoryFaults`: the first `pc` that does not fetch. -/
theorem test_witness_fetchBeyond : 4095 ≤ (State.reset.setPc 0xFFE).pc.toNat + 1 := by decide

/-- `UnknownOpcodeFaults`: the last `pc` that fetches, over zeros. -/
theorem test_witness_unknownOpcode :
    let s := State.reset.setPc 0xFFD
    s.pc.toNat + 1 < 4095 ∧
    (0 : Word).toNat = (s.byteAt Config.hw s.pc.toNat).toNat * 256 +
      (s.byteAt Config.hw (s.pc.toNat + 1)).toNat ∧ decode 0 = none := by decide

/-- `StoreIsSeenByTheNextFetch`: the last place such a store can stand. -/
theorem test_witness_storeSeen :
    let s := (State.reset.setPc 0xFFB).setIndex 0xFFD
    1 ≤ (1 : Reg).toNat ∧ s.index.toNat = s.pc.toNat + 2 ∧ s.index.toNat + (1 : Reg).toNat < 4095 := by
  decide

/-- `TimersTickOncePerCompletedCycle`: a step of each of its four kinds. -/
theorem test_witness_timers :
    seen 0xF015 State.reset (fun t => t.waiting) = some false ∧
    seen 0xF018 State.reset (fun t => t.waiting) = some false ∧
    seen 0x6000 State.reset (fun t => t.waiting) = some false ∧
    seen 0xF00A State.reset (fun t => t.waiting) = some true := by decide

/-- `WaitingComesOnlyFromTheKeyWait`: Fx0A with no key and with the last one. -/
theorem test_witness_waiting :
    fetched Config.hw (holding 0xF00A State.reset) = some (.ldVxK 0) ∧
    seen 0xF00A State.reset (fun t => t.waiting) = some true ∧
    seen 0xF00A (State.reset.setKey 0xF true) (fun t => t.waiting) = some false := by decide

/-- `WaitingComesOnlyFromTheKeyWait`, its replies: Fx18 writing 2 and 3 over ST = 2, and another
instruction at ST = 2 and 1. -/
theorem test_witness_stepReplies :
    (transact .step (holding 0xF018 ((regs2 2 0).setSt 2))).2 = .done true ∧
    (transact .step (holding 0xF018 ((regs2 3 0).setSt 2))).2 = .done false ∧
    (transact .step (holding 0x6000 (State.reset.setSt 2))).2 = .done true ∧
    (transact .step (holding 0x6000 (State.reset.setSt 1))).2 = .done false := by decide

/-- `RedrawIsClearedAndReadByTheHostOnly`: a step that keeps `redraw`, and one that faults. -/
theorem test_witness_redraw :
    seen 0x6000 (State.reset.setRedraw true) (fun t => t.redraw) = some true ∧
    faultOf (step State.reset) = some (.unknownOpcode 0xF090) := by decide

/-- `KeysAreWrittenByTheHostAndReadByThree`: other transactions, both end keys, an instruction that
completes and one that faults. -/
theorem test_witness_keys :
    (∀ k p, Transaction.step ≠ .keyUpdate k p) ∧ (0 : Int) ≤ 15 ∧ (15 : Int) < 16 ∧
    (∀ x, Instr.ret ≠ .skp x ∧ Instr.ret ≠ .sknp x ∧ Instr.ret ≠ .ldVxK x) ∧
    faultOf (exec .ret State.reset) = some (.stackUnderflow 0) ∧
    (nextOf (exec .ret (State.reset.setStack [0]))).isSome = true :=
  ⟨by intros; simp, by decide, by decide, by decide, by decide, by decide⟩

/-- `ItemsChangeOnlyByTheirWriters`: a step that changes each item. -/
theorem test_witness_items :
    seen 0xA001 State.reset (fun t => decide (t.index ≠ 0)) = some true ∧
    seen 0x2200 State.reset (fun t => decide (t.stack ≠ [])) = some true ∧
    seen 0xF033 ((regs2 255 0).setIndex 0x300) (fun t =>
      decide (t.byteAt Config.hw 0x300 ≠ State.reset.byteAt Config.hw 0x300)) = some true ∧
    seen 0xD011 (sprite [0x80] 0 0) (fun t => decide (t.fb ≠ [] ∧ t.redraw = true)) = some true := by
  decide

/-- `FlagRegisterChangesOnlyByItsWriters`: a flag writer, and an ordinary destination. -/
theorem test_witness_flagRegister :
    seen 0x8014 (regs2 255 1) (·.reg 0xF) = some 1 ∧
    seen 0x6F05 State.reset (·.reg 0xF) = some 5 := by decide

/-- `ResetState`: the clauses on memory at their boundaries. -/
theorem test_witness_reset :
    Config.hw.wellFormed = true ∧ Config.hw.glyphs[0]? = some 0xF0 ∧
    Config.hw.glyphs[79]? = some 0x80 ∧ Config.hw.glyphs[80]? = none := by decide

theorem saved_replicate (n : Nat) : ∀ w ∈ List.replicate n (4093 : Word),
    w.toNat + 1 < Config.hw.memSize := by
  intro w hw; rw [List.eq_of_mem_replicate hw]; decide

/-- A state at the edges of the invariant: I, pc and the stack at their largest. -/
def edge : State :=
  ((State.reset.setIndex 0xFFF).setPc 4350).setStack (List.replicate 16 4093)

theorem test_witness_inv_edge : Inv Config.hw edge where
  mem := by decide
  fb := by decide
  index := by decide
  pc := by decide
  depth := by decide
  saved := saved_replicate 16
  atKeyWait := fun h => absurd h (by decide)

/-- `StepKeepsTheInvariant`, `TransactionsKeepTheInvariant`: a full machine that steps. -/
theorem test_witness_inv_step :
    let s := ((nearEnd 0x00E0).setFb [0, 2047]).setStack (List.replicate 16 4093)
    Inv Config.hw s ∧ (nextOf (step s)).isSome = true :=
  ⟨⟨by decide, by decide, by decide, by decide, by decide, saved_replicate 16, fun h => absurd h (by decide)⟩,
    by decide⟩

/-- The same with `waiting` set: the instruction at `pc` is Fx0A. -/
theorem test_witness_inv_waiting :
    let s := (holding 0xF00A State.reset).setWaiting true
    Inv Config.hw s ∧ (nextOf (step s)).isSome = true :=
  ⟨⟨by decide, by decide, by decide, by decide, by decide, saved_replicate 0, fun _ => ⟨0, by decide⟩⟩,
    by decide⟩

/-- `ReachableStatesMeetTheInvariant`: a state after a load, a wait and a key. -/
theorem test_witness_reachable :
    ∃ s, Reachable s ∧ s.waiting = true ∧ s.key 3 = true :=
  ⟨_, ⟨[.load [0xF0, 0x0A], .step, .keyUpdate 3 true], rfl⟩, by decide, by decide⟩

/-- `FaultsHaveTheirCauses`: a step for each fault this hardware's policy allows. -/
theorem test_witness_faults :
    faultOf (step (State.reset.setPc 0xFFE)) = some (.fetchOutOfBounds 0xFFE) ∧
    faultOf (step (nearEnd 0x8008)) = some (.unknownOpcode 0x8008) ∧
    faultOf (step ((nearEnd 0x2000).setStack (List.replicate 16 0))) =
      some (.stackOverflow 0xFFC) ∧
    faultOf (step (nearEnd 0x00EE)) = some (.stackUnderflow 0xFFC) ∧
    faultOf (step ((nearEnd 0xF033).setIndex 4093)) = some (.memOutOfBounds 4095) ∧
    faultOf (step ((nearEnd 0xF055).setIndex 4095)) = some (.memOutOfBounds 4095) ∧
    faultOf (step ((nearEnd 0xF165).setIndex 4094)) = some (.memOutOfBounds 4095) ∧
    faultOf (step ((nearEnd 0xD002).setIndex 4094)) = some (.memOutOfBounds 4095) := by decide

/-- `JumpSetsThePc`, `ComputedJumpAddsV0`: targets that do not fetch, at their first value. -/
theorem test_witness_jumps :
    4095 ≤ (0xFFE : Addr12).toNat + 1 ∧
    4095 ≤ (0xFFD : Addr12).toNat + ((regs2 1 0).reg 0).toNat + 1 := by decide

/-- `CallPushesOrOverflows`, `CallThenReturnRestores`: the last call that fits, the first that does
not, and a depth of 1. -/
theorem test_witness_calls :
    (State.reset.setStack (List.replicate 15 0)).stack.length < 16 ∧
    16 ≤ (State.reset.setStack (List.replicate 16 0)).stack.length ∧
    { Config.hw with stackDepth := 1 }.stackDepth ≤ (State.reset.setStack [0]).stack.length := by
  decide

/-- `ReturnPopsOrUnderflows`: one entry, and none. -/
theorem test_witness_returns :
    (State.reset.setStack [0xFFFF]).stack = 0xFFFF :: [] ∧ State.reset.stack = [] := by decide

/-- `SkipsOnRegisters`: words of the two groups with n not 0. -/
theorem test_witness_skipWords :
    (0x5121 : Word).toNat / 4096 = 5 ∧ (0x5121 : Word).toNat % 16 ≠ 0 ∧
    (0x9ABF : Word).toNat / 4096 = 9 ∧ (0x9ABF : Word).toNat % 16 ≠ 0 := by decide

/-- `AddRegistersSetsCarry`, `SubtractionsSetNoBorrow`, `ShiftsMoveOneBitOut`: a destination other
than VF. -/
theorem test_witness_notFlag : (0xE : Reg) ≠ 0xF := by decide

/-- `RandomIsMaskedByKk`: both ends of kk, and a bit that kk has not. -/
theorem test_witness_random :
    (255 : Byte) = 0xFF ∧ (0xFF : Byte) ≠ 0 ∧ (0x7F : Byte).getLsbD 7 = false := by decide

/-- `StoreDigitsWritesThreeBytes`, `StoreBlockWritesRegisters`, `LoadBlockReadsRegisters`: the last
base that fits; addresses beside the stored bytes; a register above x. -/
theorem test_witness_blocks :
    dataBase (State.reset.setIndex 4092) + 2 < 4095 ∧ (4091 < 4092 ∨ 4092 + 2 < 4091) ∧
    dataBase (State.reset.setIndex 4079) + (0xF : Reg).toNat < 4095 ∧
    (0xE : Reg).toNat < (0xF : Reg).toNat := by decide

/-- `BlockAccessPastTheEndFaults`: the first base that does not fit, of this memory and of another. -/
theorem test_witness_pastTheEnd :
    4095 ≤ dataBase (State.reset.setIndex 4093) + 2 ∧
    4095 ≤ dataBase (State.reset.setIndex 4080) + (0xF : Reg).toNat ∧
    { Config.hw with memSize := 2048 }.memSize ≤ dataBase (State.reset.setIndex 2046) + 2 ∧
    { Config.hw with memSize := 2048 }.memSize ≤
      dataBase (State.reset.setIndex 2048) + (0 : Reg).toNat := by decide

/-- `SaveThenRestoreRegisters`: a store that completes, with room for the second load; and a state
with its memory and the old index. -/
theorem test_witness_saveRestore :
    let s := State.reset.setIndex 4063
    ∃ t, exec (.storeRegs 0xF) s = .next t ∧ s.index.toNat + 2 * (0xF : Reg).toNat + 1 < 4095 ∧
      (∀ a, (t.setIndex 4063).byteAt Config.hw a = t.byteAt Config.hw a) ∧
      (t.setIndex 4063).index = s.index :=
  ⟨_, rfl, by decide, fun _ => rfl, by decide⟩

/-- `DrawClippedSprite`, `DrawFaultsInOrder`: no row beyond memory, all rows up to its end, and one
row too many. -/
theorem test_witness_drawBounds :
    dataBase (State.reset.setIndex 4080) + (0xF : Nibble).toNat ≤ 4095 ∧
    4095 < dataBase (State.reset.setIndex 4081) + (0xF : Nibble).toNat ∧ (0xF : Nibble) ≠ 0 := by
  decide

/-- `DrawWrappedSprite`: the smallest frame R5 allows, under `wrap`. -/
theorem test_witness_wrap :
    let c := { policy .wrap with fbWidth := 8, fbHeight := 15 }
    c.wellFormed = true ∧ c.oobPolicy = .wrap ∧
    dataBase (State.reset.setIndex 4080) + (0xF : Nibble).toNat ≤ c.memSize := by decide

/-- `DrawFaultsInOrder`: under `fault`, a set bit one column outside. -/
theorem test_witness_outOfFrame :
    let s := sprite [0x01] 57 31
    (policy .fault).oobPolicy = .fault ∧ dataBase s + (1 : Nibble).toNat ≤ (policy .fault).memSize ∧
    ∃ px py, SpriteCovers (policy .fault) s (dataBase s) (1 : Nibble).toNat (s.reg 0).toNat
      (s.reg 1).toNat px py ∧ ((policy .fault).fbWidth ≤ px ∨ (policy .fault).fbHeight ≤ py) :=
  ⟨by decide, by decide, 64, 31, ⟨7, 0, by decide⟩, by decide⟩

/-- `InFrameDrawsAgreeUnderAllPolicies`: an eight-bit row in the last place it fits. -/
theorem test_witness_inFrame :
    let s := sprite [0xFF] 56 31
    ∀ px py, SpriteCovers Config.hw s (dataBase s) (1 : Nibble).toNat (s.reg 0).toNat
      (s.reg 1).toNat px py → px < Config.hw.fbWidth ∧ py < Config.hw.fbHeight := by
  rintro s px py ⟨col, row, hc, hr, hx, hy, -⟩
  have h0 : (s.reg 0).toNat = 56 := by decide
  have h1 : (s.reg 1).toNat = 31 := by decide
  have h2 : (1 : Nibble).toNat = 1 := rfl
  rw [hw_fbWidth, hw_fbHeight]
  omega

/-- `DrawTwiceRestores`: a draw that completes on a clear frame in canonical form. -/
theorem test_witness_drawTwice :
    (0 : Reg) ≠ 0xF ∧ (1 : Reg) ≠ 0xF ∧
    (nextOf (exec (.drw 0 1 1) (sprite [0xFF] 60 31))).isSome = true ∧
    Display.wf Config.hw (sprite [0xFF] 60 31).fb := by decide

/-- `KeySkips`: the highest key, and a value above 15. -/
theorem test_witness_keySkips :
    (0xF : Nibble).toNat = ((regs2 0xFF 0).reg 0).toNat % 16 ∧
    (3 : Nibble).toNat = ((regs2 0x13 0).reg 0).toNat % 16 := by decide

/-- `KeyWaitCompletesOrWaits`: only the highest key pressed, and none. -/
theorem test_witness_keyWait :
    (State.reset.setKey 0xF true).key 0xF = true ∧
    (∀ j : Nibble, j.toNat < (0xF : Nibble).toNat → (State.reset.setKey 0xF true).key j = false) ∧
    ∀ k, State.reset.key k = false := by decide

/-- `LoadCopiesTheImageOrChangesNothing`: the longest image, the first too long, and a byte of one. -/
theorem test_witness_load :
    (List.replicate 3583 (0 : Byte)).length ≤ 3583 ∧ 3583 < (List.replicate 3584 (0 : Byte)).length ∧
    [(0x60 : Byte), 0x01][1]? = some 0x01 := by
  simp only [List.length_replicate]; decide

/-- `KeyUpdateSetsOneKey`, `FrameQueryReadsRowMajor`: indices at both ends, inside and outside. -/
theorem test_witness_indices :
    (0 ≤ (15 : Int) ∧ (15 : Int) ≤ 15) ∧ ((-1 : Int) < 0 ∨ 15 < (-1 : Int)) ∧
    (63 < 64 ∧ 31 < 32) ∧ ((2048 : Int) < 0 ∨ 2047 < (2048 : Int)) := by decide

/-- `RunsEndAtTheFirstFatalFault`: runs that failed, by a step and by a load, one that did not, and a
jump to its own address. -/
theorem test_witness_runs :
    (hostRun [.step, .clearRedraw] State.reset).failed = true ∧
    ((transact (.load (List.replicate 3584 0)) State.reset).2.severity = some .fatal) ∧
    (hostRun [.load [0x60, 0x01], .step, .redrawPending] State.reset).failed = false ∧
    fetched Config.hw (holding 0x1200 State.reset) = some (.jp 0x200) ∧
    (0x200 : Addr12).setWidth 16 = (holding 0x1200 State.reset).pc :=
  ⟨by decide, by rw [transact, test_load_too_large _ List.length_replicate]; rfl, by decide, by decide, by decide⟩

end Sys2Proof.Tests
end

/-! SUPPORT. The keys (10_state.md R30): who writes them, and which instructions do not read them. -/

namespace Sys2Proof.Machine

/-! Writing the keys: only `KeyUpdate` does. -/

theorem complete_keys {next : Word} {u t : State} (h : complete next u = .next t) :
    t.keys = u.keys :=
  (complete_next (c := Config.hw) h).2.2.2

/-- No instruction writes a key: its own effect on the state does not, and the end of the cycle
does not. -/
theorem exec_keys {i : Instr} {s t : State} (h : exec i s = .next t) : t.keys = s.keys := by
  have hi := exec_next h
  cases i
  case ret =>
    obtain ⟨_, _, _, hc⟩ := hi
    exact (complete_keys hc).trans rfl
  case ldVxK x =>
    rcases hi with ⟨_, rfl⟩ | ⟨_, _, hc⟩
    · rfl
    · exact (complete_keys hc).trans rfl
  case call | drw | ldB | storeRegs | loadRegs => exact (complete_keys hi.2).trans rfl
  all_goals exact (complete_keys hi).trans rfl

theorem step_keys {s t : State} (h : step s = .next t) : t.keys = s.keys := by
  obtain ⟨_, _, _, hi⟩ := cycle_next h
  exact exec_keys hi

theorem load_keys {c : Config} {bytes : List Byte} {s t : State} (h : load c bytes s = .ok t) :
    t.keys = s.keys := by
  unfold load at h
  split at h
  · cases h
  · cases h; rfl

theorem transact_keys {a : Transaction} (s : State) (ha : ∀ k p, a ≠ .keyUpdate k p) :
    (transact a s).1.keys = s.keys := by
  cases a with
  | step =>
    cases hs : step s with
    | next t => rw [transact_step_next hs]; exact step_keys hs
    | fault f => rw [transact_step_fault hs]
    | refused r => simp only [transact, hs]
  | load bytes =>
    cases hl : load Config.hw bytes s with
    | ok t => simp only [transact, hl]; exact load_keys hl
    | error e => simp only [transact, hl]
  | keyUpdate k p => exact absurd rfl (ha k p)
  | frameQuery i => simp only [transact]; split <;> rfl
  | redrawPending => rfl
  | clearRedraw => rfl

theorem transact_keyUpdate_inRange {k : Int} (p : Bool) (s : State) (h0 : 0 ≤ k) (h16 : k < 16) :
    transact (.keyUpdate k p) s = (s.setKey (BitVec.ofInt 4 k) p, .none) := by
  simp only [transact, keyUpdate, h0, h16, and_self, if_true]

/-- The key that a number in range selects is the one of that number. -/
theorem eq_ofInt_iff_toNat_eq {k : Int} (q : Nibble) (h0 : 0 ≤ k) (h16 : k < 16) :
    q = BitVec.ofInt 4 k ↔ (q.toNat : Int) = k := by
  rw [← BitVec.toNat_inj, BitVec.toNat_ofInt]
  omega

/-! Reading the keys: an instruction other than Ex9E, ExA1 and Fx0A runs the same whatever they are.
Each shared operation that can fault commutes with `setKey`, and so does each instruction. -/

/-- An answer with its next state, if it has one, changed by `g`. -/
def mapNext (g : State → State) : Result → Result
  | .next t => .next (g t)
  | .fault f => .fault f
  | .refused r => .refused r

@[simp] theorem mapNext_next (g : State → State) (t : State) :
    mapNext g (.next t) = .next (g t) := rfl
@[simp] theorem mapNext_fault (g : State → State) (f : Fault) :
    mapNext g (.fault f) = .fault f := rfl

theorem mapNext_guardSpan (g : State → State) (c : Config) (a len : Nat) (r : Result) :
    mapNext g (guardSpan c a len r) = guardSpan c a len (mapNext g r) :=
  apply_ite (mapNext g) _ _ _

theorem push_setKey (c : Config) (w : Word) (s : State) (k : Nibble) (b : Bool) :
    push c w (s.setKey k b) = (push c w s).map (·.setKey k b) := by
  simp only [push, apply_ite (Except.map _)]
  rfl

theorem call_setKey (c : Config) (nnn : Addr12) (s : State) (k : Nibble) (b : Bool) :
    call c nnn (s.setKey k b) = mapNext (·.setKey k b) (call c nnn s) := by
  simp only [call, push_setKey, State.setKey_pc]
  cases push c s.pc s <;> rfl

theorem ret_setKey (s : State) (k : Nibble) (b : Bool) :
    ret (s.setKey k b) = mapNext (·.setKey k b) (ret s) := by
  simp only [ret, pop, State.setKey_stack]
  cases s.stack <;> rfl

theorem drawSprite_setKey (c : Config) (x y : Reg) (n : Nibble) (s : State) (k : Nibble)
    (b : Bool) :
    drawSprite c x y n (s.setKey k b) = mapNext (·.setKey k b) (drawSprite c x y n s) := by
  simp only [drawSprite, mapNext_guardSpan, apply_ite (mapNext _)]
  rfl

theorem storeDigits_setKey (c : Config) (x : Reg) (s : State) (k : Nibble) (b : Bool) :
    storeDigits c x (s.setKey k b) = mapNext (·.setKey k b) (storeDigits c x s) := by
  simp only [storeDigits, mapNext_guardSpan]
  rfl

theorem storeBlock_setKey (c : Config) (x : Reg) (s : State) (k : Nibble) (b : Bool) :
    storeBlock c x (s.setKey k b) = mapNext (·.setKey k b) (storeBlock c x s) := by
  simp only [storeBlock, mapNext_guardSpan]
  rfl

theorem loadBlock_setKey (c : Config) (x : Reg) (s : State) (k : Nibble) (b : Bool) :
    loadBlock c x (s.setKey k b) = mapNext (·.setKey k b) (loadBlock c x s) := by
  simp only [loadBlock, mapNext_guardSpan]
  rfl

/-- Changing a key before an instruction that reads none changes that key after it and nothing else.
The instructions without a lemma of their own cannot fault: each is `complete` after updates that
neither read nor write `keys`, so both sides are the same state by unfolding. -/
theorem exec_setKey {i : Instr} (s : State) (k : Nibble) (b : Bool)
    (hi : ∀ x, i ≠ .skp x ∧ i ≠ .sknp x ∧ i ≠ .ldVxK x) :
    exec i (s.setKey k b) = mapNext (·.setKey k b) (exec i s) := by
  cases i
  case skp x => exact absurd rfl (hi x).1
  case sknp x => exact absurd rfl (hi x).2.1
  case ldVxK x => exact absurd rfl (hi x).2.2
  case ret => exact ret_setKey s k b
  case call nnn => exact call_setKey Config.hw nnn s k b
  case drw x y n => exact drawSprite_setKey Config.hw x y n s k b
  case ldB x => exact storeDigits_setKey Config.hw x s k b
  case storeRegs x => exact storeBlock_setKey Config.hw x s k b
  case loadRegs x => exact loadBlock_setKey Config.hw x s k b
  all_goals rfl

/-- Settles O15: the reset state and `setKey` give the first and third part, `transact_keys` and
`exec_setKey` the second and fourth. -/
theorem keysAreWrittenByTheHostAndReadByThree :
    Obligations.KeysAreWrittenByTheHostAndReadByThree := by
  refine ⟨by decide, fun a s ha => transact_keys s ha, fun k p s q h0 h16 => ?_,
    fun i s k b hi => ⟨fun f hf => ?_, fun t ht => ?_⟩⟩
  · simp only [transact_keyUpdate_inRange p s h0 h16, State.setKey_key,
      eq_ofInt_iff_toNat_eq q h0 h16]
  · rw [exec_setKey s k b hi, hf, mapNext_fault]
  · rw [exec_setKey s k b hi, ht, mapNext_next]

end Sys2Proof.Machine


/-! SUPPORT. The skips (41_control_flow.md R103 to R106): each is `skipIf` of its own condition. -/

namespace Sys2Proof.Machine

/-- A skip always completes; it moves `pc` by 4 or 2 and changes nothing else but the tick. -/
theorem skipIf_doneChanging (c : Config) (cond : Bool) (s : State) :
    ∃ t, skipIf cond s = .next t ∧
      DoneChanging c [] [] (if cond then s.pc + 4 else s.pc + 2) s t := by
  obtain ⟨t, ht, -, -, hd⟩ := complete_doneChanging (if cond then s.pc + 4 else s.pc + 2)
    rfl rfl rfl (onlyChanged_refl c s)
  exact ⟨t, ht, hd⟩

/-- A skip on equality: `pc + 4` where the two bytes are equal, else `pc + 2`. -/
theorem skipIf_beq_doneChanging (c : Config) (a b : Byte) (s : State) :
    ∃ t, skipIf (a == b) s = .next t ∧
      DoneChanging c [] [] (if a = b then s.pc + 4 else s.pc + 2) s t := by
  simpa only [beq_iff_eq] using skipIf_doneChanging c (a == b) s

/-- A skip on difference: `pc + 2` where the two bytes are equal, else `pc + 4`. -/
theorem skipIf_bne_doneChanging (c : Config) (a b : Byte) (s : State) :
    ∃ t, skipIf (a != b) s = .next t ∧
      DoneChanging c [] [] (if a = b then s.pc + 2 else s.pc + 4) s t := by
  simpa only [bne_iff_ne, ne_eq, ite_not] using skipIf_doneChanging c (a != b) s

/-- Settles O30: the words are the encoder's by unfolding, and the two instructions are the skips on
equality and on difference of `V[x]` and `kk`. -/
theorem skipsOnAnImmediate : Obligations.SkipsOnAnImmediate := by
  intro x kk s
  exact ⟨rfl, rfl, skipIf_beq_doneChanging Config.hw (s.reg x) kk s,
    skipIf_bne_doneChanging Config.hw (s.reg x) kk s⟩

end Sys2Proof.Machine


/-! SUPPORT. The register instructions that write no flag (42_alu.md R122 to R127): each is
`advance` after one `setReg` of its own result. -/

namespace Sys2Proof.Machine

/-- One register written, then the default advance: it always completes, the register holds the
byte, and nothing else changes but `pc` and the tick. -/
theorem advance_setReg_doneChanging (c : Config) (x : Reg) (b : Byte) (s : State) :
    ∃ t, advance (s.setReg x b) = .next t ∧ t.reg x = b ∧
      DoneChanging c [x] [] (s.pc + 2) s t := by
  obtain ⟨t, ht, hreg, -, hd⟩ := complete_doneChanging (s.pc + 2)
    (State.setReg_dt s x b) (State.setReg_st s x b) (State.setReg_beeps s x b)
    (onlyChanged_setReg c s x b)
  exact ⟨t, ht, by simp [hreg], hd⟩

/-- Settles O32: both loads are the write of one register, of `kk` and of `V[y]`. -/
theorem registerLoads : Obligations.RegisterLoads := by
  intro x y kk s
  exact ⟨wordRI_or x kk rfl, wordRR_or x y rfl, advance_setReg_doneChanging Config.hw x kk s,
    advance_setReg_doneChanging Config.hw x (s.reg y) s⟩

/-- Settles O33: the byte written is the sum as a natural number, reduced by `BitVec.ofNat 8`. -/
theorem addImmediateWraps : Obligations.AddImmediateWraps := by
  intro x kk s
  obtain ⟨t, ht, hx, hd⟩ := advance_setReg_doneChanging Config.hw x
    (BitVec.ofNat 8 ((s.reg x).toNat + kk.toNat)) s
  exact ⟨wordRI_or x kk rfl, t, ht, by rw [hx, BitVec.toNat_ofNat], hd⟩

/-- Settles O34: the byte written is the or, and, exclusive or of the two registers, and the
library's `getLsbD` lemmas read off its bits. -/
theorem logicIsBitwise : Obligations.LogicIsBitwise := by
  intro x y s
  obtain ⟨o, ho, hox, hod⟩ := advance_setReg_doneChanging Config.hw x (s.reg x ||| s.reg y) s
  obtain ⟨a, ha, hax, had⟩ := advance_setReg_doneChanging Config.hw x (s.reg x &&& s.reg y) s
  obtain ⟨e, he, hex, hed⟩ := advance_setReg_doneChanging Config.hw x (s.reg x ^^^ s.reg y) s
  exact ⟨wordRR_or x y rfl, wordRR_or x y rfl, wordRR_or x y rfl,
    ⟨o, ho, fun k => by rw [hox, BitVec.getLsbD_or], hod⟩,
    ⟨a, ha, fun k => by rw [hax, BitVec.getLsbD_and], had⟩,
    ⟨e, he, fun k => by rw [hex, BitVec.getLsbD_xor], hed⟩⟩

end Sys2Proof.Machine


/-! SUPPORT. The index loads (43_index_memory.md R141, R143): each is `advance` after one `setIndex`
of a word its mask leaves as it is. -/

namespace Sys2Proof.Machine

/-- The index written, then the default advance: it always completes, `I` holds the word's low 12
bits, and nothing else changes but `pc` and the tick. -/
theorem advance_setIndex_doneChanging (c : Config) (w : Word) (s : State) :
    ∃ t, advance (s.setIndex w) = .next t ∧ t.index.toNat = w.toNat % 4096 ∧
      DoneChanging c [] [.index] (s.pc + 2) s t := by
  obtain ⟨t, ht, -, hkept, hd⟩ := complete_doneChanging (s.pc + 2)
    (State.setIndex_dt s w) (State.setIndex_st s w) (State.setIndex_beeps s w)
    (onlyChanged_setIndex c s w)
  have hindex : t.index = w &&& Config.addrMask := hkept .index
  exact ⟨t, ht, by rw [hindex, and_addrMask_toNat], hd⟩

@[simp] theorem toNat_addressOf (nnn : Addr12) : (addressOf nnn).toNat = nnn.toNat :=
  BitVec.toNat_setWidth_of_le (by decide)

/-- `5 * V[x]` fits a word, so nothing of the product is lost. -/
@[simp] theorem toNat_glyphAddress (x : Reg) (s : State) :
    (glyphAddress x s).toNat = 5 * (s.reg x).toNat := by
  have hreg := (s.reg x).isLt
  rw [glyphAddress, Config.glyphStride, BitVec.toNat_ofNat, Nat.mod_eq_of_lt (by omega)]

/-- Settles O39: the address has 12 bits, so the index mask keeps it whole. -/
theorem loadIndexImmediate : Obligations.LoadIndexImmediate := by
  intro nnn s
  obtain ⟨t, ht, hindex, hd⟩ := advance_setIndex_doneChanging Config.hw (addressOf nnn) s
  exact ⟨wordA_or nnn rfl, t, ht,
    by rw [hindex, toNat_addressOf, Nat.mod_eq_of_lt nnn.isLt], hd⟩

/-- Settles O41: five times a byte is at most 1275, so the index mask keeps the product whole. -/
theorem glyphIndexIsFiveTimes : Obligations.GlyphIndexIsFiveTimes := by
  intro x s
  obtain ⟨t, ht, hindex, hd⟩ := advance_setIndex_doneChanging Config.hw (glyphAddress x s) s
  have hbound : 5 * (s.reg x).toNat ≤ 1275 := by
    have := (s.reg x).isLt
    omega
  have hfive : t.index.toNat = 5 * (s.reg x).toNat := by
    rw [hindex, toNat_glyphAddress, Nat.mod_eq_of_lt (by omega)]
  exact ⟨wordR_or x rfl, t, ht, hfive, hfive.trans_le hbound, hd⟩

end Sys2Proof.Machine


/-! SUPPORT. The redraw bit (44_display.md R156): a step reads it nowhere and can only set it. -/

namespace Sys2Proof.Machine

/-- The instructions that set `redraw` when they complete (10_state.md R29). -/
def setsRedraw : Instr → Bool
  | .cls | .drw _ _ _ => true
  | _ => false

@[simp] theorem State.setRedraw_self (s : State) : s.setRedraw s.redraw = s := rfl
@[simp] theorem State.setRedraw_setRedraw (s : State) (a b : Bool) :
    (s.setRedraw a).setRedraw b = s.setRedraw b := rfl

theorem guardSpan_of_eq_mapNext {g : State → State} (c : Config) (a len : Nat) {r r' : Result}
    (h : r' = mapNext g r) : guardSpan c a len r' = mapNext g (guardSpan c a len r) := by
  rw [mapNext_guardSpan, h]

theorem push_setRedraw (c : Config) (w : Word) (s : State) (b : Bool) :
    push c w (s.setRedraw b) = (push c w s).map (·.setRedraw b) := by
  simp only [push, apply_ite (Except.map _)]
  rfl

theorem call_setRedraw (c : Config) (nnn : Addr12) (s : State) (b : Bool) :
    call c nnn (s.setRedraw b) = mapNext (·.setRedraw b) (call c nnn s) := by
  simp only [call, push_setRedraw, State.setRedraw_pc]
  cases push c s.pc s <;> rfl

theorem ret_setRedraw (s : State) (b : Bool) :
    ret (s.setRedraw b) = mapNext (·.setRedraw b) (ret s) := by
  simp only [ret, pop, State.setRedraw_stack]
  cases s.stack <;> rfl

theorem execLdVxK_setRedraw (x : Reg) (s : State) (b : Bool) :
    execLdVxK x (s.setRedraw b) = mapNext (·.setRedraw b) (execLdVxK x s) := by
  have hkey : (s.setRedraw b).lowestKey = s.lowestKey := rfl
  simp only [execLdVxK, hkey]
  cases s.lowestKey <;> rfl

/-- A draw sets `redraw`, so the bit it found does not show in its next state. -/
theorem drawSprite_setRedraw (c : Config) (x y : Reg) (n : Nibble) (s : State) (b : Bool) :
    drawSprite c x y n (s.setRedraw b) = mapNext (·.setRedraw true) (drawSprite c x y n s) := by
  simp only [drawSprite, mapNext_guardSpan, apply_ite (mapNext _)]
  rfl

/-- Changing `redraw` before an instruction changes at most `redraw` after it: a writer sets the bit
whatever it was, any other instruction leaves it. Without a named case are the instructions that
always complete: both sides are then one `complete`, by unfolding. -/
theorem exec_setRedraw (i : Instr) (s : State) (b : Bool) :
    exec i (s.setRedraw b) = mapNext (·.setRedraw (setsRedraw i || b)) (exec i s) := by
  cases i
  case ret => exact ret_setRedraw s b
  case call nnn => exact call_setRedraw Config.hw nnn s b
  case ldVxK x => exact execLdVxK_setRedraw x s b
  case drw x y n => exact drawSprite_setRedraw Config.hw x y n s b
  case ldB | storeRegs | loadRegs => exact guardSpan_of_eq_mapNext _ _ _ rfl
  all_goals rfl

/-- A cycle does to `redraw` what the instruction it runs does: fetch and decode do not read it. -/
theorem step_setRedraw (s : State) (b : Bool) :
    ∃ r, (b = true → r = true) ∧ step (s.setRedraw b) = mapNext (·.setRedraw r) (step s) := by
  have hfetch : fetch Config.hw (s.setRedraw b) = fetch Config.hw s := rfl
  simp only [step, cycle, hfetch]
  cases fetch Config.hw s with
  | error f => exact ⟨b, id, rfl⟩
  | ok op =>
    dsimp only
    cases decode op with
    | none => exact ⟨b, id, rfl⟩
    | some i => exact ⟨setsRedraw i || b, fun hb => by simp [hb], exec_setRedraw i s b⟩

theorem step_keeps_redraw {s t : State} (h : step s = .next t) (hs : s.redraw = true) :
    t.redraw = true := by
  obtain ⟨r, hr, hstep⟩ := step_setRedraw s true
  rw [← hs, State.setRedraw_self, h, mapNext_next] at hstep
  injection hstep with ht
  rw [ht, State.setRedraw_redraw, hr rfl]

/-- Settles O14: the two host calls by unfolding, the steps by `step_setRedraw`. -/
theorem redrawIsClearedAndReadByTheHostOnly :
    Obligations.RedrawIsClearedAndReadByTheHostOnly := by
  refine ⟨fun _ => rfl, fun _ => rfl, fun _ _ => step_keeps_redraw, fun s b f hf => ?_,
    fun s b t ht => ?_⟩
  · obtain ⟨r, -, hstep⟩ := step_setRedraw s b
    rw [hstep, hf, mapNext_fault]
  · obtain ⟨r, -, hstep⟩ := step_setRedraw s b
    exact ⟨t.setRedraw r, by rw [hstep, ht, mapNext_next],
      by rw [State.setRedraw_setRedraw, State.setRedraw_self]⟩

end Sys2Proof.Machine


/-! SUPPORT. The opcode map row by row (30_encoding.md R72 to R79): the word of a row's instruction by
its format alone, and what the decoder makes of a word. -/

namespace Sys2Proof

/-! The row of an instruction, and the instruction of a row. -/

@[simp] theorem Row.row_instr (r : Row) (x y : Reg) (n : Nibble) (kk : Byte) (nnn : Addr12) :
    (r.instr x y n kk nnn).row = r := by
  cases r <;> rfl

/-- The word of a row's instruction, built from the row's match value as its format says (R72). -/
def Row.word (r : Row) (x y : Reg) (n : Nibble) (kk : Byte) (nnn : Addr12) : Word :=
  match r.format with
  | .exact => r.bits
  | .address => wordA (majorField r.bits) nnn
  | .regImm => wordRI (majorField r.bits) x kk
  | .regReg => wordRRN (majorField r.bits) x y (nField r.bits)
  | .regRegNibble => wordRRN (majorField r.bits) x y n
  | .reg => wordRI (majorField r.bits) x (kkField r.bits)

theorem encode_instr (r : Row) (x y : Reg) (n : Nibble) (kk : Byte) (nnn : Addr12) :
    encode (r.instr x y n kk nnn) = r.word x y n kk nnn := by
  cases r <;> rfl

/-- The match value of R75 is the row's word with every operand 0. -/
theorem Row.bits_eq_word_zero (r : Row) : r.bits = r.word 0 0 0 0 0 := by
  cases r <;> rfl

/-! Decoding after encoding. -/

theorem decodeRow_encode (i : Instr) : decodeRow (encode i) = some i.row := by
  cases i
  case cls | ret => rfl
  all_goals
    simp [encode, Instr.row, decodeRow, decodeGroup8, decodeGroupE, decodeGroupF]

/-- The fields of an instruction's word hold the instruction's operands. -/
theorem instr_row_fields_encode (i : Instr) :
    i.row.instr (xField (encode i)) (yField (encode i)) (nField (encode i)) (kkField (encode i))
      (nnnField (encode i)) = i := by
  cases i <;> simp [encode, Instr.row, Row.instr]

theorem decode_encode (i : Instr) : decode (encode i) = some i := by
  rw [decode, decodeRow_encode, Option.map_some, instr_row_fields_encode]

/-- Settles O2: the decoder selects the instruction's own row, whose operands stand in the fields. -/
theorem decodeUndoesEncode : Obligations.DecodeUndoesEncode := by
  intro i rest
  exact ⟨decode_encode i, by rw [decodeBytes_word, decode_encode]⟩

/-! The fixed bits of a word, by its fields. -/

theorem and_maskMajor (op : Word) :
    op &&& (0xF000 : Word) = (majorField op).setWidth 16 <<< 12 :=
  (congrArg (· &&& (0xF000 : Word)) (wordA_fields op).symm).trans (wordA_mask ..)

theorem and_maskMajorN (op : Word) :
    op &&& (0xF00F : Word) = (majorField op).setWidth 16 <<< 12 ||| (nField op).setWidth 16 :=
  (congrArg (· &&& (0xF00F : Word)) (wordRRN_fields op).symm).trans (wordRRN_maskRegReg ..)

theorem and_maskMajorKk (op : Word) :
    op &&& (0xF0FF : Word) = (majorField op).setWidth 16 <<< 12 ||| (kkField op).setWidth 16 :=
  (congrArg (· &&& (0xF0FF : Word)) (wordRI_fields op).symm).trans (wordRI_maskReg ..)

theorem majorField_and (op w : Word) : majorField (op &&& w) = majorField op &&& majorField w :=
  BitVec.extractLsb'_and ..

theorem nField_and (op w : Word) : nField (op &&& w) = nField op &&& nField w :=
  BitVec.extractLsb'_and ..

theorem kkField_and (op w : Word) : kkField (op &&& w) = kkField op &&& kkField w :=
  BitVec.extractLsb'_and ..

theorem and_eq_self_of_allOnes {k : Nat} {u v : BitVec k} (h : v = BitVec.allOnes k) :
    u &&& v = u := by
  rw [h, BitVec.and_allOnes]

/-- Group 0 decides on the whole word. -/
theorem eq_of_group0 {op : Word} {nnn : Addr12} (hm : majorField op = 0x0#4)
    (hn : nnnField op = nnn) : op = nnn.setWidth 16 := by
  rw [← wordA_fields op, hm, hn]
  exact BitVec.zero_or

/-- A word that has a row's fixed bits is the row's word of its own fields. -/
theorem word_fields_of_matches {r : Row} {op : Word} (h : op &&& r.mask = r.bits) :
    r.word (xField op) (yField op) (nField op) (kkField op) (nnnField op) = op := by
  have hmajor := congrArg majorField h
  have hn := congrArg nField h
  have hkk := congrArg kkField h
  rw [majorField_and] at hmajor
  rw [nField_and] at hn
  rw [kkField_and] at hkk
  unfold Row.word
  unfold Row.mask at h hmajor hn hkk
  cases hf : r.format <;> rw [hf] at h hmajor hn hkk <;> dsimp only at h hmajor hn hkk ⊢
  case exact => exact h.symm.trans BitVec.and_allOnes
  case address => rw [← hmajor, and_eq_self_of_allOnes (by decide), wordA_fields]
  case regImm => rw [← hmajor, and_eq_self_of_allOnes (by decide), wordRI_fields]
  case regRegNibble => rw [← hmajor, and_eq_self_of_allOnes (by decide), wordRRN_fields]
  case regReg =>
    rw [← hmajor, ← hn, and_eq_self_of_allOnes (by decide), and_eq_self_of_allOnes (by decide),
      wordRRN_fields]
  case reg =>
    rw [← hmajor, ← hkk, and_eq_self_of_allOnes (by decide), and_eq_self_of_allOnes (by decide),
      wordRI_fields]

/-! The second level of the dispatch (R74): the fixed bits of the row a digit or byte selects. -/

theorem decodeGroup0_fixedBits {nnn : Addr12} {r : Row} (h : decodeGroup0 nnn = some r) :
    r.mask = 0xFFFF ∧ r.bits = nnn.setWidth 16 := by
  unfold decodeGroup0 at h
  split_ifs at h with h0 h1
  · cases h; subst h0; decide
  · cases h; subst h1; decide

theorem decodeGroup8_fixedBits : ∀ n, ∀ r ∈ decodeGroup8 n,
    r.mask = 0xF00F ∧ r.bits = 0x8000 ||| n.setWidth 16 := by decide

theorem decodeGroupE_fixedBits : ∀ kk, ∀ r ∈ decodeGroupE kk,
    r.mask = 0xF0FF ∧ r.bits = 0xE000 ||| kk.setWidth 16 := by decide

theorem decodeGroupF_fixedBits : ∀ kk, ∀ r ∈ decodeGroupF kk,
    r.mask = 0xF0FF ∧ r.bits = 0xF000 ||| kk.setWidth 16 := by decide

/-- A case split over the first digit of a word (R74). -/
theorem majorField_cases {P : Nibble → Prop} (g0 : P 0x0) (g1 : P 0x1) (g2 : P 0x2) (g3 : P 0x3)
    (g4 : P 0x4) (g5 : P 0x5) (g6 : P 0x6) (g7 : P 0x7) (g8 : P 0x8) (g9 : P 0x9) (gA : P 0xA)
    (gB : P 0xB) (gC : P 0xC) (gD : P 0xD) (gE : P 0xE) (gF : P 0xF) (m : Nibble) : P m := by
  obtain ⟨v, hv⟩ := m
  interval_cases v <;> assumption

/-- The row the decoder selects has the word's fixed bits. -/
theorem matches_of_decodeRow {op : Word} {r : Row} (h : decodeRow op = some r) :
    op &&& r.mask = r.bits := by
  cases hm : majorField op using majorField_cases <;>
    simp only [decodeRow, hm, BitVec.reduceEq, if_true, if_false, Option.ite_none_right_eq_some,
      Option.some.injEq] at h
  case g0 =>
    obtain ⟨hmask, hbits⟩ := decodeGroup0_fixedBits h
    rw [hmask, hbits, ← eq_of_group0 hm rfl]
    exact BitVec.and_allOnes
  case g8 =>
    obtain ⟨hmask, hbits⟩ := decodeGroup8_fixedBits _ _ h
    rw [hmask, hbits, and_maskMajorN, hm]
    rfl
  case gE =>
    obtain ⟨hmask, hbits⟩ := decodeGroupE_fixedBits _ _ h
    rw [hmask, hbits, and_maskMajorKk, hm]
    rfl
  case gF =>
    obtain ⟨hmask, hbits⟩ := decodeGroupF_fixedBits _ _ h
    rw [hmask, hbits, and_maskMajorKk, hm]
    rfl
  case g5 | g9 =>
    obtain ⟨hn, rfl⟩ := h
    refine (and_maskMajorN op).trans ?_
    rw [hm, hn]
    rfl
  all_goals
    subst h
    refine (and_maskMajor op).trans ?_
    rw [hm]
    rfl

/-- The decoder selects exactly the row whose fixed bits the word has: such a word is the row's
word, and the decoder undoes the encoder. -/
theorem decodeRow_eq_some {op : Word} {r : Row} :
    decodeRow op = some r ↔ op &&& r.mask = r.bits := by
  refine ⟨matches_of_decodeRow, fun h => ?_⟩
  have henc := encode_instr r (xField op) (yField op) (nField op) (kkField op) (nnnField op)
  rw [word_fields_of_matches h] at henc
  rw [← henc, decodeRow_encode, Row.row_instr]

theorem decode_eq_none {op : Word} : decode op = none ↔ decodeRow op = none :=
  Option.map_eq_none_iff

/-- Settles O3: a word that decodes has its row's fixed bits, so it is the row's word of its fields. -/
theorem encodeUndoesDecode : Obligations.EncodeUndoesDecode := by
  intro op i h
  obtain ⟨r, hr, rfl⟩ := Option.map_eq_some_iff.mp h
  rw [encode_instr, word_fields_of_matches (matches_of_decodeRow hr)]

/-- Settles O4: `decodeRow_eq_some` row by row, and none where no row is selected. -/
theorem decodeSelectsTheMatchingRow : Obligations.DecodeSelectsTheMatchingRow := by
  intro op
  refine ⟨fun r => decodeRow_eq_some, ?_⟩
  rw [decode_eq_none, Option.eq_none_iff_forall_ne_some]
  exact forall_congr' fun r => not_congr decodeRow_eq_some

/-! The unknown words (R76), by the word's number. -/

theorem toNat_majorField (op : Word) : (majorField op).toNat = op.toNat / 4096 := by
  have := op.isLt
  rw [majorField, BitVec.extractLsb'_toNat, Nat.shiftRight_eq_div_pow]
  omega

theorem toNat_nnnField (op : Word) : (nnnField op).toNat = op.toNat % 4096 :=
  BitVec.extractLsb'_toNat ..

theorem toNat_xField (op : Word) : (xField op).toNat = op.toNat / 256 % 16 := by
  rw [xField, BitVec.extractLsb'_toNat, Nat.shiftRight_eq_div_pow]

theorem toNat_yField (op : Word) : (yField op).toNat = op.toNat / 16 % 16 := by
  rw [yField, BitVec.extractLsb'_toNat, Nat.shiftRight_eq_div_pow]

theorem toNat_nField (op : Word) : (nField op).toNat = op.toNat % 16 :=
  BitVec.extractLsb'_toNat ..

theorem toNat_kkField (op : Word) : (kkField op).toNat = op.toNat % 256 :=
  BitVec.extractLsb'_toNat ..

theorem decodeGroup0_eq_none {nnn : Addr12} :
    decodeGroup0 nnn = none ↔ nnn.toNat ≠ 0x0E0 ∧ nnn.toNat ≠ 0x0EE := by
  unfold decodeGroup0
  split_ifs with h0 h1
  · simp [h0]
  · simp [h1]
  · rw [BitVec.toNat_eq] at h0 h1
    exact iff_of_true rfl ⟨h0, h1⟩

theorem decodeGroup8_eq_none : ∀ n : Nibble,
    decodeGroup8 n = none ↔ n.toNat ∈ [8, 9, 10, 11, 12, 13, 15] := by decide

theorem decodeGroupE_eq_none : ∀ kk : Byte,
    decodeGroupE kk = none ↔ kk.toNat ∉ [0x9E, 0xA1] := by decide

theorem decodeGroupF_eq_none : ∀ kk : Byte, decodeGroupF kk = none ↔
    kk.toNat ∉ [0x07, 0x0A, 0x15, 0x18, 0x1E, 0x29, 0x33, 0x55, 0x65] := by decide

/-- Settles O5: the first digit picks the group, whose own lemma says which words are unknown. -/
theorem unknownWordsAreTheSixGroups : Obligations.UnknownWordsAreTheSixGroups := by
  intro op
  rw [decode_eq_none, ← toNat_majorField, ← toNat_nField, ← toNat_kkField]
  cases hm : majorField op using majorField_cases <;>
    simp only [decodeRow, hm, BitVec.reduceEq, if_true, if_false]
  case g0 =>
    have hsmall : op.toNat / 4096 = 0 := by rw [← toNat_majorField, hm]; rfl
    rw [decodeGroup0_eq_none, toNat_nnnField, Nat.mod_eq_of_lt (by omega)]
    simp
  case g5 | g9 => simp [BitVec.toNat_eq]
  case g8 => rw [decodeGroup8_eq_none]; simp
  case gE => rw [decodeGroupE_eq_none]; simp
  case gF => rw [decodeGroupF_eq_none]; simp
  all_goals simp

/-! The assembler (R79). -/

theorem toNat_wordA (m : Nibble) (nnn : Addr12) :
    (wordA m nnn).toNat = m.toNat * 4096 + nnn.toNat := by
  have hm := toNat_majorField (wordA m nnn)
  have hn := toNat_nnnField (wordA m nnn)
  rw [majorField_wordA] at hm
  rw [nnnField_wordA] at hn
  omega

theorem toNat_wordRI (m : Nibble) (x : Reg) (kk : Byte) :
    (wordRI m x kk).toNat = m.toNat * 4096 + x.toNat * 256 + kk.toNat := by
  have hm := toNat_majorField (wordRI m x kk)
  have hx := toNat_xField (wordRI m x kk)
  have hk := toNat_kkField (wordRI m x kk)
  rw [majorField_wordRI] at hm
  rw [xField_wordRI] at hx
  rw [kkField_wordRI] at hk
  omega

theorem toNat_wordRRN (m : Nibble) (x y : Reg) (n : Nibble) :
    (wordRRN m x y n).toNat = m.toNat * 4096 + x.toNat * 256 + y.toNat * 16 + n.toNat := by
  have hm := toNat_majorField (wordRRN m x y n)
  have hx := toNat_xField (wordRRN m x y n)
  have hy := toNat_yField (wordRRN m x y n)
  have hn := toNat_nField (wordRRN m x y n)
  rw [majorField_wordRRN] at hm
  rw [xField_wordRRN] at hx
  rw [yField_wordRRN] at hy
  rw [nField_wordRRN] at hn
  omega

/-- The number of an instruction's word is the match value's number plus the operands', each in
the place its format gives it. -/
theorem toNat_word_of_fit {r : Row} {o : RawOperands} (h : o.fit r.format = true) :
    (r.word (BitVec.ofNat 4 o.x) (BitVec.ofNat 4 o.y) (BitVec.ofNat 4 o.n) (BitVec.ofNat 8 o.kk)
      (BitVec.ofNat 12 o.nnn)).toNat = r.bits.toNat + Machine.operandValue o r.format := by
  rw [r.bits_eq_word_zero]
  unfold Row.word
  cases hf : r.format <;> rw [hf] at h <;>
    simp only [RawOperands.fit, Bool.and_eq_true, decide_eq_true_eq] at h <;>
    simp only [toNat_wordA, toNat_wordRI, toNat_wordRRN, Machine.operandValue,
      BitVec.ofNat_eq_ofNat, BitVec.toNat_ofNat, Nat.reducePow] <;>
    omega

/-- Settles O6: the assembler's own condition, the row of its instruction, and the number of the word
built from the row's match value. -/
theorem assemblerFitsOrRejects : Obligations.AssemblerFitsOrRejects := by
  intro r o
  refine ⟨fun h => by simp [assemble, h], fun h => ?_⟩
  exact ⟨_, by rw [assemble, if_pos h], r.row_instr .., by rw [encode_instr, toNat_word_of_fit h]⟩

/-- Settles O1: the decoder evaluated on the listed words. -/
theorem sampleWordsDecode : Obligations.SampleWordsDecode := by
  unfold Obligations.SampleWordsDecode
  decide

end Sys2Proof


/-! SUPPORT. The invariant `Inv` (Safety.lean): it holds after construction, every step keeps it, and
so does every transaction of the host. -/

namespace Sys2Proof.Machine

/-! The next `pc` of an instruction that was fetched stays in the range of R23. -/

theorem toNat_pc_add_two_le {s : State} (h : s.pc.toNat + 1 < 4095) : (s.pc + 2).toNat ≤ 4350 := by
  rw [BitVec.toNat_add]
  exact (Nat.mod_le _ _).trans (by change s.pc.toNat + 2 ≤ 4350; omega)

theorem toNat_skip_le {s : State} (b : Bool) (h : s.pc.toNat + 1 < 4095) :
    (if b then s.pc + 4 else s.pc + 2).toNat ≤ 4350 := by
  cases b
  · exact toNat_pc_add_two_le h
  · rw [if_pos rfl, BitVec.toNat_add]
    exact (Nat.mod_le _ _).trans (by change s.pc.toNat + 4 ≤ 4350; omega)

theorem toNat_addressOf_le (nnn : Addr12) : (addressOf nnn).toNat ≤ 4350 := by
  rw [toNat_addressOf]
  have := nnn.isLt
  omega

/-- The sum of R107 fits a word, so nothing of it is lost. -/
theorem toNat_computedTarget (nnn : Addr12) (s : State) :
    (computedTarget nnn s).toNat = nnn.toNat + (s.reg 0).toNat := by
  have := nnn.isLt
  have := (s.reg 0).isLt
  rw [computedTarget, BitVec.toNat_ofNat, Nat.mod_eq_of_lt (by omega)]

theorem toNat_computedTarget_le (nnn : Addr12) (s : State) :
    (computedTarget nnn s).toNat ≤ 4350 := by
  rw [toNat_computedTarget]
  have := nnn.isLt
  have := (s.reg 0).isLt
  omega

theorem toNat_setIndex_le (s : State) (w : Word) : (s.setIndex w).index.toNat ≤ 0x0FFF := by
  rw [State.setIndex_index, and_addrMask_toNat]
  omega

@[simp] theorem length_regsUpTo (x : Reg) (s : State) : (regsUpTo x s).length = x.toNat + 1 := by
  simp [regsUpTo]

@[simp] theorem length_decimalDigits (b : Byte) : (decimalDigits b).length = 3 := rfl

/-! Steps. -/

/-- An instruction that was fetched keeps the invariant. The cases without a name leave memory,
framebuffer, `I` and stack as they are. -/
theorem exec_inv {i : Instr} {s t : State} (hinv : Inv Config.hw s)
    (hpc : s.pc.toNat + 1 < 4095) (hfetched : fetched Config.hw s = some i)
    (h : exec i s = .next t) : Inv Config.hw t := by
  have hend := exec_next h
  obtain ⟨hmem, hfb, hindex, -, hdepth, hsaved, -⟩ := hinv
  have hnext := toNat_pc_add_two_le hpc
  cases i
  case cls => exact inv_complete hend hmem (Display.wf_nil _) hindex hnext hdepth hsaved
  case ret =>
    obtain ⟨w, l, hs, hend⟩ := hend
    rw [hs] at hdepth hsaved
    have hw : w.toNat + 1 < 4095 := hsaved w List.mem_cons_self
    have hpop : (w + 2).toNat ≤ 4350 := toNat_pc_add_two_le (s := s.setPc w) hw
    exact inv_complete hend hmem hfb hindex hpop ((Nat.le_succ _).trans hdepth)
      fun v hv => hsaved v (List.mem_cons_of_mem _ hv)
  case call nnn =>
    obtain ⟨hroom, hend⟩ := hend
    exact inv_complete hend hmem hfb hindex (toNat_addressOf_le nnn) hroom
      (List.forall_mem_cons.mpr ⟨hpc, hsaved⟩)
  case jp nnn => exact inv_complete hend hmem hfb hindex (toNat_addressOf_le nnn) hdepth hsaved
  case jpV0 nnn =>
    exact inv_complete hend hmem hfb hindex (toNat_computedTarget_le nnn s) hdepth hsaved
  case seImm | sneImm | seReg | sneReg | skp | sknp =>
    exact inv_complete hend hmem hfb hindex (toNat_skip_le _ hpc) hdepth hsaved
  case ldI | addI | ldF =>
    exact inv_complete hend hmem hfb (toNat_setIndex_le s _) hnext hdepth hsaved
  case drw x y n =>
    exact inv_complete hend.2 hmem (wf_drawPixels _ (by decide) (by decide) hfb) hindex hnext
      hdepth hsaved
  case ldVxK x =>
    obtain ⟨-, rfl⟩ | ⟨k, -, hend⟩ := hend
    · exact ⟨hmem, hfb, hindex, by change s.pc.toNat ≤ 4350; omega, hdepth, hsaved,
        fun _ => ⟨x, hfetched⟩⟩
    · exact inv_complete hend hmem hfb hindex hnext hdepth hsaved
  case ldB x =>
    obtain ⟨hspan, hend⟩ := hend
    rw [← length_decimalDigits (s.reg x)] at hspan
    exact inv_complete hend (Memory.wf_writeBytes _ _ hmem hspan) hfb hindex hnext hdepth hsaved
  case storeRegs x =>
    obtain ⟨hspan, hend⟩ := hend
    rw [← length_regsUpTo x s] at hspan
    exact inv_complete hend (Memory.wf_writeBytes _ _ hmem hspan) hfb (toNat_setIndex_le s _) hnext
      hdepth hsaved
  case loadRegs x =>
    refine inv_complete hend.2 ?_ ?_ (toNat_setIndex_le _ _) hnext ?_ ?_ <;>
      simp only [State.setIndex_mem, State.setIndex_fb, State.setIndex_stack,
        State.setRegsUpTo_mem, State.setRegsUpTo_fb, State.setRegsUpTo_stack] <;>
      assumption
  all_goals exact inv_complete hend hmem hfb hindex hnext hdepth hsaved

/-- Settles O20: a step that answers a next state ran an instruction it had fetched. -/
theorem stepKeepsTheInvariant : Obligations.StepKeepsTheInvariant := by
  intro s t hinv h
  obtain ⟨hpc, i, hfetched, hi⟩ := cycle_next h
  exact exec_inv hinv hpc hfetched hi

/-! Transactions. -/

theorem load_inv {c : Config} {bytes : List Byte} {s t : State} (hinv : Inv c s)
    (hc : c.textOffset ≤ c.memSize) (hpc : c.textOffset ≤ 4350)
    (h : load c bytes s = .ok t) : Inv c t := by
  unfold load at h
  split at h
  · cases h
  · cases h
    exact ⟨Memory.wf_writeBytes _ _ hinv.mem (by omega), hinv.fb, hinv.index,
      by rw [State.setWaiting_pc, State.setPc_pc, BitVec.toNat_ofNat]
         exact (Nat.mod_le _ _).trans hpc,
      hinv.depth, hinv.saved, fun hw => by cases hw⟩

/-- A key changed between cycles: the invariant does not speak of keys. -/
theorem setKey_inv {c : Config} {s : State} (hinv : Inv c s) (k : Nibble) (b : Bool) :
    Inv c (s.setKey k b) :=
  ⟨hinv.mem, hinv.fb, hinv.index, hinv.pc, hinv.depth, hinv.saved, hinv.atKeyWait⟩

theorem clearRedraw_inv {c : Config} {s : State} (hinv : Inv c s) : Inv c (clearRedraw s) :=
  ⟨hinv.mem, hinv.fb, hinv.index, hinv.pc, hinv.depth, hinv.saved, hinv.atKeyWait⟩

/-- Settles O21: a transaction that fails leaves the state; of the others a step, a load, a key
change and `ClearRedraw` change it, each by its own lemma. -/
theorem transactionsKeepTheInvariant : Obligations.TransactionsKeepTheInvariant := by
  intro a s hinv
  cases a with
  | step =>
    cases hs : step s with
    | next t => rw [transact_step_next hs]; exact stepKeepsTheInvariant s t hinv hs
    | fault f => rw [transact_step_fault hs]; exact hinv
    | refused r => simpa only [transact, hs] using hinv
  | load bytes =>
    cases hl : load Config.hw bytes s with
    | ok t => simpa only [transact, hl] using load_inv hinv (by decide) (by decide) hl
    | error e => simpa only [transact, hl] using hinv
  | keyUpdate k p =>
    simp only [transact, keyUpdate]
    split_ifs
    · exact setKey_inv hinv _ _
    · exact hinv
  | frameQuery i =>
    simp only [transact]
    split <;> exact hinv
  | redrawPending => exact hinv
  | clearRedraw => exact clearRedraw_inv hinv

/-! Reachable states. -/

/-- Settles O19: memory, framebuffer and stack are empty, and every number is 0. -/
theorem resetMeetsTheInvariant : Obligations.ResetMeetsTheInvariant := fun c =>
  ⟨Memory.wf_nil c, Display.wf_nil c, Nat.zero_le _, Nat.zero_le _, Nat.zero_le _,
    List.forall_mem_nil _, fun hw => by cases hw⟩

theorem runTransactions_inv (l : List Transaction) {s : State} (hinv : Inv Config.hw s) :
    Inv Config.hw (runTransactions l s) := by
  induction l generalizing s with
  | nil => exact hinv
  | cons a l ih => exact ih (transactionsKeepTheInvariant a s hinv)

/-- Settles O22: the invariant holds at reset and every transaction keeps it. -/
theorem reachableStatesMeetTheInvariant : Obligations.ReachableStatesMeetTheInvariant := by
  rintro _ ⟨l, rfl⟩
  exact runTransactions_inv l (resetMeetsTheInvariant Config.hw)

end Sys2Proof.Machine


/-! SUPPORT. Control transfer (41_control_flow.md R100 to R108) and the fetch fault of R172. -/

namespace Sys2Proof.Machine

/-! The first two phases of a step. -/

theorem step_of_fetch_error {s : State} {f : Fault} (h : fetch Config.hw s = .error f) :
    step s = .fault f := by
  simp only [step, cycle, h]

theorem step_of_fetchOutOfBounds {s : State} (h : 4095 ≤ s.pc.toNat + 1) :
    step s = .fault (.fetchOutOfBounds s.pc) := by
  rcases fetch_cases Config.hw s with ⟨hb, -⟩ | ⟨-, hf⟩
  · exact absurd hb (not_lt.mpr h)
  · exact step_of_fetch_error hf

/-- An answer has at most one next state. -/
theorem eq_of_next {r : Result} {t t' : State} (h : r = .next t) (h' : r = .next t') : t' = t := by
  rw [h] at h'
  injection h' with e
  exact e.symm

/-! Jumps. -/

/-- A cycle without an effect of its own: `pc` goes to `next` and nothing else changes but the
tick. -/
theorem complete_self_doneChanging (c : Config) (next : Word) (s : State) :
    ∃ t, complete next s = .next t ∧ DoneChanging c [] [] next s t := by
  obtain ⟨t, ht, -, -, hd⟩ := complete_doneChanging next rfl rfl rfl (onlyChanged_refl c s)
  exact ⟨t, ht, hd⟩

theorem DoneChanging.pc_eq {c : Config} {regs : List Reg} {items : List Item} {next : Word}
    {s t : State} (h : DoneChanging c regs items next s t) : t.pc = next := by
  obtain ⟨⟨-, hpc, -⟩, -⟩ := h
  exact hpc

/-- Settles O25: the jump is a cycle without an effect of its own, and `nnn` is its next `pc`. -/
theorem jumpSetsThePc : Obligations.JumpSetsThePc := by
  intro nnn s
  obtain ⟨t, ht, hd⟩ := complete_self_doneChanging Config.hw (addressOf nnn) s
  refine ⟨wordA_or nnn rfl, t, ht, hd, fun h => ?_⟩
  have hpc : t.pc = nnn.setWidth 16 := hd.pc_eq
  have hfault := step_of_fetchOutOfBounds (s := t)
  rw [hpc] at hfault
  exact hfault (h.trans_eq (by rw [BitVec.toNat_setWidth_of_le (by decide)]))

/-- Settles O26: the sum fits a word, so the next `pc` is the plain sum. -/
theorem computedJumpAddsV0 : Obligations.ComputedJumpAddsV0 := by
  intro nnn s
  obtain ⟨t, ht, hd⟩ := complete_self_doneChanging Config.hw (computedTarget nnn s) s
  have hpc : t.pc.toNat = nnn.toNat + (s.reg 0).toNat := by rw [hd.pc_eq, toNat_computedTarget]
  exact ⟨wordA_or nnn rfl, t, ht, hpc, by rwa [hd.pc_eq],
    fun h => step_of_fetchOutOfBounds (by rwa [hpc])⟩

/-! Call and return. -/

/-- The stack replaced, then the end of the cycle: it always completes. -/
theorem complete_setStack_doneChanging (c : Config) (next : Word) (l : List Word) (s : State) :
    ∃ t, complete next (s.setStack l) = .next t ∧ t.stack = l ∧
      DoneChanging c [] [.stack] next s t := by
  obtain ⟨t, ht, -, hkept, hd⟩ := complete_doneChanging next (State.setStack_dt s l)
    (State.setStack_st s l) (State.setStack_beeps s l) (onlyChanged_setStack c s l)
  exact ⟨t, ht, hkept .stack, hd⟩

theorem call_of_room {c : Config} {s : State} (nnn : Addr12) (h : s.stack.length < c.stackDepth) :
    call c nnn s = complete (addressOf nnn) (s.setStack (s.pc :: s.stack)) := by
  simp only [call, push, if_pos h]

theorem call_of_full {c : Config} {s : State} (nnn : Addr12) (h : c.stackDepth ≤ s.stack.length) :
    call c nnn s = .fault (.stackOverflow s.pc) := by
  simp only [call, push, if_neg (not_lt.mpr h)]

theorem ret_of_cons {s : State} {w : Word} {l : List Word} (h : s.stack = w :: l) :
    ret s = complete (w + 2) (s.setStack l) := by
  simp only [ret, pop, h]

theorem ret_of_nil {s : State} (h : s.stack = []) : ret s = .fault (.stackUnderflow s.pc) := by
  simp only [ret, pop, h]

/-- Settles O27: a push on a stack with room, and the overflow on a full one. -/
theorem callPushesOrOverflows : Obligations.CallPushesOrOverflows := by
  intro nnn s
  refine ⟨wordA_or nnn rfl, fun h => ?_, fun h => call_of_full (c := Config.hw) nnn h,
    fun c h => call_of_full nnn h⟩
  obtain ⟨t, ht, hstack, hd⟩ :=
    complete_setStack_doneChanging Config.hw (addressOf nnn) (s.pc :: s.stack) s
  exact ⟨t, (call_of_room (c := Config.hw) nnn h).trans ht, hstack, hd⟩

/-- Settles O28: a pop from a stack with an entry, and the underflow of an empty one. -/
theorem returnPopsOrUnderflows : Obligations.ReturnPopsOrUnderflows := by
  refine ⟨rfl, fun s w l h => ?_, fun s h => ret_of_nil h⟩
  obtain ⟨t, ht, hstack, hd⟩ := complete_setStack_doneChanging Config.hw (w + 2) l s
  exact ⟨t, (ret_of_cons h).trans ht, hstack, hd⟩

/-- An item that is back where it was need not be named in a frame. -/
theorem OnlyChanged.of_kept {c : Config} {regs : List Reg} {items : List Item} {s t : State}
    (h : OnlyChanged c regs items s t) (hkept : ∀ k ∈ items, Kept c k s t) :
    OnlyChanged c regs [] s t := by
  obtain ⟨hregs, hitems, hkeys⟩ := h
  refine ⟨hregs, fun k _ => ?_, hkeys⟩
  by_cases hk : k ∈ items
  · exact hkept k hk
  · exact hitems k hk

/-- Settles O29: the call pushes its own `pc`, which the return pops, and the two ticks add up. -/
theorem callThenReturnRestores : Obligations.CallThenReturnRestores := by
  intro nnn s h
  obtain ⟨-, hcall, -, -⟩ := callPushesOrOverflows nnn s
  obtain ⟨t, ht, htstack, ⟨⟨htdt, htst, -⟩, -, -⟩, htonly⟩ := hcall h
  obtain ⟨-, hret, -⟩ := returnPopsOrUnderflows
  obtain ⟨u, hu, hustack, ⟨⟨hudt, hust, -⟩, hupc, -⟩, huonly⟩ := hret t _ _ htstack
  refine ⟨t, u, ht, hu, hupc, hustack, (htonly.trans huonly).of_kept ?_, ?_, ?_⟩
  · intro k hk
    obtain rfl : k = .stack := by simpa using hk
    exact hustack
  · rw [hudt, htdt, Nat.sub_sub]
  · rw [hust, htst, Nat.sub_sub]

/-- Settles O31: the two skips on registers, and groups 5 and 9 of the unknown words. -/
theorem skipsOnRegisters : Obligations.SkipsOnRegisters := by
  refine ⟨fun x y s => ⟨wordRR_or x y rfl, wordRR_or x y rfl,
    skipIf_beq_doneChanging Config.hw (s.reg x) (s.reg y) s,
    skipIf_bne_doneChanging Config.hw (s.reg x) (s.reg y) s⟩, fun op hgroup hdigit => ?_⟩
  refine (unknownWordsAreTheSixGroups op).mpr ?_
  rcases hgroup with h | h
  · exact .inr (.inl ⟨h, hdigit⟩)
  · exact .inr (.inr (.inr (.inl ⟨h, hdigit⟩)))

end Sys2Proof.Machine


/-! SUPPORT. The instructions that write `VF` or draw a random byte (42_alu.md R128 to R133,
43_index_memory.md R142): each is `advance` after its own effect on the state. -/

namespace Sys2Proof.Machine

/-- An effect that kept `pc` and the timers, then the default advance: it always completes. -/
theorem advance_doneChanging {c : Config} {regs : List Reg} {items : List Item} {s u : State}
    (hpc : u.pc = s.pc) (hdt : u.dt = s.dt) (hst : u.st = s.st) (hbeeps : u.beeps = s.beeps)
    (h : OnlyChanged c regs items s u) :
    ∃ t, advance u = .next t ∧ (∀ r, t.reg r = u.reg r) ∧ (∀ k, Kept c k u t) ∧
      DoneChanging c regs items (s.pc + 2) s t := by
  rw [advance, hpc]
  exact complete_doneChanging (s.pc + 2) hdt hst hbeeps h

/-- A result and a flag written, then the default advance: the flag stands in `VF`, and the result
in `V[x]` unless that is `VF`. -/
theorem advance_setRegAndFlag_doneChanging (c : Config) (x : Reg) (b : Byte) (f : Bool)
    (s : State) :
    ∃ t, advance (s.setRegAndFlag x b f) = .next t ∧ (x ≠ 0xF → t.reg x = b) ∧
      t.reg 0xF = flagByte f ∧ DoneChanging c [x, 0xF] [] (s.pc + 2) s t := by
  obtain ⟨t, ht, hreg, -, hd⟩ := advance_doneChanging (State.setRegAndFlag_pc s x b f)
    (State.setRegAndFlag_dt s x b f) (State.setRegAndFlag_st s x b f)
    (State.setRegAndFlag_beeps s x b f) (onlyChanged_setRegAndFlag c s x b f)
  refine ⟨t, ht, fun hx => ?_, ?_, hd⟩
  · rw [hreg, State.setRegAndFlag_reg, if_neg hx, if_pos rfl]
  · rw [hreg, State.setRegAndFlag_reg, if_pos rfl]

theorem flagByte_decide (p : Prop) [Decidable p] : flagByte (decide p) = if p then 1 else 0 := by
  simp [flagByte]

theorem toNat_flagByte_lowBit : ∀ a : Byte, (flagByte (lowBit a)).toNat = a.toNat % 2 := by decide

theorem toNat_flagByte_highBit : ∀ a : Byte, (flagByte (highBit a)).toNat = a.toNat / 128 := by
  decide

/-- Settles O35: the sum as a natural number, reduced modulo 256, and its carry. -/
theorem addRegistersSetsCarry : Obligations.AddRegistersSetsCarry := by
  intro x y s
  obtain ⟨t, ht, hx, hf, hd⟩ := advance_setRegAndFlag_doneChanging Config.hw x
    (BitVec.ofNat 8 ((s.reg x).toNat + (s.reg y).toNat)) (carry (s.reg x) (s.reg y)) s
  exact ⟨wordRR_or x y rfl, t, ht, fun h => by rw [hx h, BitVec.toNat_ofNat],
    hf.trans (flagByte_decide _), hd⟩

/-- A difference of bytes modulo 256. -/
theorem toNat_ofNat_sub (a b : Byte) :
    ((BitVec.ofNat 8 (a.toNat + 256 - b.toNat)).toNat : Int) = (a.toNat - b.toNat : Int) % 256 := by
  have := b.isLt
  rw [BitVec.toNat_ofNat]
  omega

/-- Settles O36: both subtractions are one result and one flag, the operands exchanged. -/
theorem subtractionsSetNoBorrow : Obligations.SubtractionsSetNoBorrow := by
  intro x y s
  obtain ⟨t, ht, hx, hf, hd⟩ := advance_setRegAndFlag_doneChanging Config.hw x
    (BitVec.ofNat 8 ((s.reg x).toNat + 256 - (s.reg y).toNat)) (noBorrow (s.reg x) (s.reg y)) s
  obtain ⟨u, hu, hux, huf, hud⟩ := advance_setRegAndFlag_doneChanging Config.hw x
    (BitVec.ofNat 8 ((s.reg y).toNat + 256 - (s.reg x).toNat)) (noBorrow (s.reg y) (s.reg x)) s
  exact ⟨wordRR_or x y rfl, wordRR_or x y rfl,
    ⟨t, ht, fun h => by rw [hx h, toNat_ofNat_sub], hf.trans (flagByte_decide _), hd⟩,
    ⟨u, hu, fun h => by rw [hux h, toNat_ofNat_sub], huf.trans (flagByte_decide _), hud⟩⟩

/-- Settles O37: the flag is the bit that the halving or doubling displaces; neither effect
mentions `y`. -/
theorem shiftsMoveOneBitOut : Obligations.ShiftsMoveOneBitOut := by
  intro x y s
  obtain ⟨t, ht, hx, hf, hd⟩ := advance_setRegAndFlag_doneChanging Config.hw x
    (BitVec.ofNat 8 ((s.reg x).toNat / 2)) (lowBit (s.reg x)) s
  obtain ⟨u, hu, hux, huf, hud⟩ := advance_setRegAndFlag_doneChanging Config.hw x
    (BitVec.ofNat 8 ((s.reg x).toNat * 2)) (highBit (s.reg x)) s
  have hlt := (s.reg x).isLt
  exact ⟨wordRR_or x y rfl, wordRR_or x y rfl, fun _ => ⟨rfl, rfl⟩,
    ⟨t, ht, fun h => by rw [hx h, BitVec.toNat_ofNat, Nat.mod_eq_of_lt (by omega)],
      by rw [hf, toNat_flagByte_lowBit], hd⟩,
    ⟨u, hu, fun h => by rw [hux h, BitVec.toNat_ofNat], by rw [huf, toNat_flagByte_highBit], hud⟩⟩

theorem onlyChanged_countDraw (c : Config) (s : State) :
    OnlyChanged c [] [.draws] s s.countDraw :=
  ⟨fun _ _ => rfl, fun k hk => by cases k <;> simp [Kept] at hk ⊢, rfl⟩

/-- Settles O38: the register holds the drawn byte masked by `kk`, and one more draw is counted. -/
theorem randomIsMaskedByKk : Obligations.RandomIsMaskedByKk := by
  intro x kk s
  obtain ⟨t, ht, hreg, hkept, hd⟩ := advance_doneChanging (s := s)
    (u := (s.setReg x (Config.rand8 s.draws &&& kk)).countDraw) rfl rfl rfl rfl
    ((onlyChanged_setReg Config.hw s x _).trans (onlyChanged_countDraw Config.hw _))
  have hx : t.reg x = Config.rand8 s.draws &&& kk := by simp [hreg]
  refine ⟨wordRI_or x kk rfl, t, ht, hx, ?_, ?_, ?_, hkept .draws, hd⟩
  · rintro rfl
    rw [hx]
    exact BitVec.and_allOnes
  · rintro rfl
    rw [hx]
    exact BitVec.and_zero
  · intro k hk
    rw [hx, BitVec.getLsbD_and, hk, Bool.and_false]

/-- Settles O40: the index mask takes the sum modulo 4096, and the flag compares the whole sum. -/
theorem addToIndexSetsOverflow : Obligations.AddToIndexSetsOverflow := by
  intro x s
  obtain ⟨t, ht, hreg, hkept, hd⟩ := advance_doneChanging (s := s)
    (u := (s.setIndex (BitVec.ofNat 16 (indexSum x s))).setFlag (indexOverflow (indexSum x s)))
    rfl rfl rfl rfl
    ((onlyChanged_setIndex Config.hw s _).trans (onlyChanged_setReg Config.hw _ 0xF _))
  have hindex : t.index = BitVec.ofNat 16 (indexSum x s) &&& Config.addrMask := hkept .index
  refine ⟨wordR_or x rfl, t, ht, ?_, ?_, hd⟩
  · rw [hindex, and_addrMask_toNat, BitVec.toNat_ofNat,
      Nat.mod_mod_of_dvd _ (by decide : 4096 ∣ 2 ^ 16)]
    rfl
  · rw [hreg, State.setFlag_reg, if_pos rfl]
    exact flagByte_decide _

end Sys2Proof.Machine


/-! SUPPORT. The memory transfers (43_index_memory.md R140 to R147). -/

namespace Sys2Proof.Machine

/-! The access check. -/

theorem guardSpan_outOfBounds {c : Config} {a len : Nat} (k : Result) (hlen : len ≠ 0)
    (h : c.memSize < a + len) :
    guardSpan c a len k = .fault (.memOutOfBounds (max a c.memSize)) := by
  rcases guardSpan_eq c a len k with ⟨hb, -⟩ | ⟨-, he⟩
  · omega
  · exact he

/-- Settles O45: the access check comes first and needs all bytes of the block. -/
theorem blockAccessPastTheEndFaults : Obligations.BlockAccessPastTheEndFaults := by
  intro x s
  have hdigits : ∀ c : Config, c.memSize ≤ dataBase s + 2 →
      storeDigits c x s = .fault (.memOutOfBounds (max (dataBase s) c.memSize)) :=
    fun c h => guardSpan_outOfBounds _ (by decide) (Nat.lt_succ_of_le h)
  have hblocks : ∀ c : Config, c.memSize ≤ dataBase s + x.toNat →
      storeBlock c x s = .fault (.memOutOfBounds (max (dataBase s) c.memSize)) ∧
      loadBlock c x s = .fault (.memOutOfBounds (max (dataBase s) c.memSize)) :=
    fun c h => ⟨guardSpan_outOfBounds _ (Nat.succ_ne_zero _) (Nat.lt_succ_of_le h),
      guardSpan_outOfBounds _ (Nat.succ_ne_zero _) (Nat.lt_succ_of_le h)⟩
  exact ⟨hdigits Config.hw, hblocks Config.hw, hdigits, hblocks⟩

/-! Block writes, byte by byte. -/

theorem Memory.read_writeBytes_inside {c : Config} {bs : List Byte} {m : Memory} (a k : Nat)
    {b : Byte} (h : bs[k]? = some b) : (m.writeBytes c a bs).read c (a + k) = b := by
  rw [Memory.read_writeBytes, if_pos (Nat.le_add_right a k), Nat.add_sub_cancel_left,
    List.getD_eq_getElem?_getD, h, Option.getD_some]

theorem Memory.read_writeBytes_outside {c : Config} {bs : List Byte} {m : Memory} {a i : Nat}
    (h : i < a ∨ a + bs.length ≤ i) : (m.writeBytes c a bs).read c i = m.read c i := by
  rw [Memory.read_writeBytes]
  split_ifs with hle
  · exact List.getD_eq_default _ _ (by omega)
  · rfl

theorem regsUpTo_getElem? {x r : Reg} (s : State) (h : r.toNat ≤ x.toNat) :
    (regsUpTo x s)[r.toNat]? = some (s.reg r) := by
  simp [regsUpTo, List.getElem?_range (Nat.lt_succ_of_le h)]

/-- Where Fx55 and Fx65 leave `I`, if the block's last byte exists. -/
theorem toNat_indexAfterBlock_and {x : Reg} {s : State} (h : dataBase s + x.toNat < 4095) :
    (indexAfterBlock x s &&& Config.addrMask).toNat = s.index.toNat + x.toNat + 1 := by
  change s.index.toNat + x.toNat < 4095 at h
  rw [and_addrMask_toNat, indexAfterBlock, BitVec.toNat_ofNat]
  omega

/-! The three transfers. -/

/-- Settles O42: the three digits are written at consecutive addresses. -/
theorem storeDigitsWritesThreeBytes : Obligations.StoreDigitsWritesThreeBytes := by
  intro x s
  refine ⟨wordR_or x rfl, fun h => ?_⟩
  obtain ⟨t, ht, -, hkept, hd⟩ := advance_doneChanging (s := s)
    (u := s.setMem (s.mem.writeBytes Config.hw (dataBase s) (decimalDigits (s.reg x))))
    rfl rfl rfl rfl (onlyChanged_setMem Config.hw s _)
  have hbyte : ∀ a, t.byteAt Config.hw a =
      (s.mem.writeBytes Config.hw (dataBase s) (decimalDigits (s.reg x))).read Config.hw a :=
    hkept .memory
  have hdigit : ∀ k d, (decimalDigits (s.reg x))[k]? = some d →
      t.byteAt Config.hw (dataBase s + k) = d := fun k d hd => by
    rw [hbyte, Memory.read_writeBytes_inside _ _ hd]
  have hlt := (s.reg x).isLt
  refine ⟨t, (guardSpan_inBounds _ (.inr h)).trans ht, ?_, ?_, ?_, fun a ha => ?_, hd⟩
  · exact (congrArg BitVec.toNat (hdigit 0 _ rfl)).trans (Nat.mod_eq_of_lt (by omega))
  · exact (congrArg BitVec.toNat (hdigit 1 _ rfl)).trans (Nat.mod_eq_of_lt (by omega))
  · exact (congrArg BitVec.toNat (hdigit 2 _ rfl)).trans (Nat.mod_eq_of_lt (by omega))
  · rw [hbyte, Memory.read_writeBytes_outside]
    · rfl
    · rw [length_decimalDigits]
      omega

/-- Settles O43: `V[0]` to `V[x]` are written at consecutive addresses. -/
theorem storeBlockWritesRegisters : Obligations.StoreBlockWritesRegisters := by
  intro x s
  refine ⟨wordR_or x rfl, fun h => ?_⟩
  obtain ⟨t, ht, -, hkept, hd⟩ := advance_doneChanging (s := s)
    (u := (s.setMem (s.mem.writeBytes Config.hw (dataBase s) (regsUpTo x s))).setIndex
      (indexAfterBlock x s)) rfl rfl rfl rfl
    ((onlyChanged_setMem Config.hw s _).trans (onlyChanged_setIndex Config.hw _ _))
  have hbyte : ∀ a, t.byteAt Config.hw a =
      (s.mem.writeBytes Config.hw (dataBase s) (regsUpTo x s)).read Config.hw a := hkept .memory
  have hindex : t.index = indexAfterBlock x s &&& Config.addrMask := hkept .index
  refine ⟨t, (guardSpan_inBounds _ (.inr h)).trans ht, fun r hr => ?_, fun a ha => ?_,
    by rw [hindex, toNat_indexAfterBlock_and h], hd⟩
  · rw [hbyte, Memory.read_writeBytes_inside _ _ (regsUpTo_getElem? s hr)]
  · rw [hbyte, Memory.read_writeBytes_outside]
    · rfl
    · rw [length_regsUpTo]
      omega

theorem mem_allRegs : ∀ r : Reg, r ∈ allRegs := by decide

theorem onlyChanged_setRegsUpTo (c : Config) (s : State) (x : Reg) (f : Nat → Byte) :
    OnlyChanged c (allRegs.filter (· ≤ x)) [] s (s.setRegsUpTo x f) := by
  refine ⟨fun r hr => ?_, fun k _ => by cases k <;> simp [Kept], rfl⟩
  rw [State.setRegsUpTo_reg, if_neg fun hle => hr ?_]
  exact List.mem_filter.mpr ⟨mem_allRegs r, decide_eq_true hle⟩

/-- A frame that names more registers says less. -/
theorem OnlyChanged.mono {c : Config} {regs regs' : List Reg} {items : List Item} {s t : State}
    (h : OnlyChanged c regs items s t) (hsub : regs ⊆ regs') : OnlyChanged c regs' items s t := by
  obtain ⟨hregs, hrest⟩ := h
  exact ⟨fun r hr => hregs r (mt (@hsub r) hr), hrest⟩

/-- Settles O44: each register up to `V[x]` is replaced by its byte of the block. -/
theorem loadBlockReadsRegisters : Obligations.LoadBlockReadsRegisters := by
  intro x s
  refine ⟨wordR_or x rfl, fun h => ?_⟩
  have honly := ((onlyChanged_setRegsUpTo Config.hw s x
    fun k => s.byteAt Config.hw (dataBase s + k)).mono (List.filter_subset_self _)).trans
    (onlyChanged_setIndex Config.hw _ (indexAfterBlock x s))
  obtain ⟨t, ht, hreg, hkept, hd⟩ := advance_doneChanging (by simp) (by simp) (by simp) (by simp)
    honly
  have hindex : t.index = indexAfterBlock x s &&& Config.addrMask := hkept .index
  refine ⟨t, (guardSpan_inBounds _ (.inr h)).trans ht, fun r hr => ?_, fun r hr => ?_,
    by rw [hindex, toNat_indexAfterBlock_and h], hd⟩
  · rw [hreg, State.setIndex_reg, State.setRegsUpTo_reg, if_pos (BitVec.le_def.mpr hr)]
  · rw [hreg, State.setIndex_reg, State.setRegsUpTo_reg,
      if_neg fun hle => not_le.mpr hr (BitVec.le_def.mp hle)]

/-- Settles O46: the store's bytes are the registers (O43), and a load reads the bytes from its own
`I` (O44): the store's first byte where `I` was reset, the byte after the store's last where not. -/
theorem saveThenRestoreRegisters : Obligations.SaveThenRestoreRegisters := by
  intro x s t hstore
  obtain ⟨hspan, -⟩ := exec_next hstore
  obtain ⟨-, hwrites⟩ := storeBlockWritesRegisters x s
  obtain ⟨t', ht', hbytes, -, hindex, -⟩ := hwrites hspan
  obtain rfl := eq_of_next hstore ht'
  refine ⟨fun v hv hvindex => ?_, fun hroom => ?_⟩
  · have hbase : dataBase v = dataBase s := congrArg BitVec.toNat hvindex
    obtain ⟨-, hreads⟩ := loadBlockReadsRegisters x v
    obtain ⟨u, hu, hregs, -, huindex, -⟩ := hreads (by rwa [hbase])
    refine ⟨u, hu, fun r hr => ?_, by rw [huindex, hvindex]⟩
    rw [hregs r hr, hbase, hv, hbytes r hr]
  · obtain ⟨-, hreads⟩ := loadBlockReadsRegisters x t'
    have hbase : dataBase t' = s.index.toNat + x.toNat + 1 := hindex
    obtain ⟨u, hu, hregs, -, huindex, -⟩ := hreads (by rw [hbase]; omega)
    refine ⟨u, hu, fun r hr => ?_, by rw [huindex, hindex]; omega⟩
    rw [hregs r hr, hbase]

/-- Settles O10: the store's first two bytes are `V[0]` and `V[1]`, and `pc` ends at the first. -/
theorem storeIsSeenByTheNextFetch : Obligations.StoreIsSeenByTheNextFetch := by
  intro s x hx hindex hroom
  obtain ⟨-, hwrites⟩ := storeBlockWritesRegisters x s
  obtain ⟨t, ht, hbytes, -, -, hd⟩ := hwrites hroom
  refine ⟨t, ht, ?_⟩
  have hpc : t.pc.toNat = dataBase s := by
    rw [hd.pc_eq, BitVec.toNat_add, Nat.mod_eq_of_lt]
    · exact hindex.symm
    · change s.pc.toNat + 2 < 65536
      omega
  have h0 : t.byteAt Config.hw t.pc.toNat = s.reg 0 := by
    rw [hpc]
    exact hbytes 0 (Nat.zero_le _)
  have h1 : t.byteAt Config.hw (t.pc.toNat + 1) = s.reg 1 := by
    rw [hpc]
    exact hbytes 1 hx
  rw [fetch, if_pos, h0, h1]
  rw [hpc, hw_memSize]
  change s.index.toNat + 1 < 4095
  omega

end Sys2Proof.Machine


/-! SUPPORT. Keys and timers (45_keys_timers.md), and the cleared screen (44_display.md R150). -/

namespace Sys2Proof.Machine

/-- Settles O53: both are skips on the key of the low 4 bits. -/
theorem keySkips : Obligations.KeySkips := by
  intro x k s hk
  have hsel : selectedKey x s = k := by
    apply BitVec.eq_of_toNat_eq
    rw [hk]
    exact BitVec.toNat_setWidth ..
  refine ⟨wordR_or x rfl, wordR_or x rfl, ?_, ?_⟩
  · rw [← hsel]
    exact skipIf_doneChanging Config.hw (s.key (selectedKey x s)) s
  · have hskip := skipIf_doneChanging Config.hw (!s.key (selectedKey x s)) s
    simp only [Bool.not_eq_true', ← Bool.not_eq_true, ite_not] at hskip
    rw [← hsel]
    exact hskip

/-- Settles O54: the key found is the lowest pressed one, and none is found where none is
pressed. -/
theorem keyWaitCompletesOrWaits : Obligations.KeyWaitCompletesOrWaits := by
  intro x s
  refine ⟨wordR_or x rfl, fun k hk hlow => ?_, fun h => ?_⟩
  · have hfound : s.lowestKey = some k :=
      lowestKey_eq_some.mpr ⟨hk, fun j hj => hlow j (BitVec.lt_def.mp hj)⟩
    obtain ⟨t, ht, hx, hd⟩ := advance_setReg_doneChanging Config.hw x (k.setWidth 8) s
    refine ⟨t, ?_, by rw [hx, BitVec.toNat_setWidth_of_le (by decide)], hd⟩
    simp only [exec, execLdVxK, hfound, ht]
  · simp only [exec, execLdVxK, lowestKey_eq_none.mpr h]
    rfl

/-- Settles O55: the write takes `DT` before the tick. -/
theorem readDelayTimer : Obligations.ReadDelayTimer := by
  intro x s
  obtain ⟨t, ht, hx, hd⟩ := advance_setReg_doneChanging Config.hw x s.dt s
  obtain ⟨⟨⟨hdt, -, -⟩, -, -⟩, -⟩ := id hd
  exact ⟨wordR_or x rfl, t, ht, hx, hdt, hd⟩

theorem onlyChanged_setDt (c : Config) (s : State) (b : Byte) :
    OnlyChanged c [] [] s (s.setDt b) :=
  ⟨fun _ _ => rfl, fun k _ => by cases k <;> simp [Kept], rfl⟩

theorem onlyChanged_setSt (c : Config) (s : State) (b : Byte) :
    OnlyChanged c [] [] s (s.setSt b) :=
  ⟨fun _ _ => rfl, fun k _ => by cases k <;> simp [Kept], rfl⟩

/-- Settles O56: the tick finds the value just written in the one timer, the old value in the
other. -/
theorem writeTimers : Obligations.WriteTimers := by
  intro x s
  refine ⟨wordR_or x rfl, wordR_or x rfl, ?_, ?_⟩
  · obtain ⟨t, ht⟩ := complete_answers (s.pc + 2) (s.setDt (s.reg x))
    obtain ⟨⟨htick, hpc, hw⟩, honly⟩ := complete_next (c := Config.hw) ht
    exact ⟨t, ht, htick, hpc, hw, (onlyChanged_setDt Config.hw s _).trans honly⟩
  · obtain ⟨t, ht⟩ := complete_answers (s.pc + 2) (s.setSt (s.reg x))
    obtain ⟨⟨htick, hpc, hw⟩, honly⟩ := complete_next (c := Config.hw) ht
    exact ⟨t, ht, htick, hpc, hw, (onlyChanged_setSt Config.hw s _).trans honly⟩

theorem onlyChanged_setFb (c : Config) (s : State) (d : Display) :
    OnlyChanged c [] [.framebuffer] s (s.setFb d) :=
  ⟨fun _ _ => rfl, fun k hk => by cases k <;> simp [Kept] at hk ⊢, rfl⟩

theorem onlyChanged_setRedraw (c : Config) (s : State) (b : Bool) :
    OnlyChanged c [] [.redraw] s (s.setRedraw b) :=
  ⟨fun _ _ => rfl, fun k hk => by cases k <;> simp [Kept] at hk ⊢, rfl⟩

/-- Settles O47: the framebuffer without a set cell, and `redraw` set. -/
theorem clearScreenClearsAndSetsRedraw : Obligations.ClearScreenClearsAndSetsRedraw := by
  refine ⟨rfl, fun s => ?_⟩
  obtain ⟨t, ht, -, hkept, hd⟩ := advance_doneChanging (s := s)
    (u := (s.setFb []).setRedraw true) rfl rfl rfl rfl
    ((onlyChanged_setFb Config.hw s _).trans (onlyChanged_setRedraw Config.hw _ _))
  have hfb : t.fb = [] := hkept .framebuffer
  refine ⟨t, ht, fun px py => ?_, hkept .redraw, hd⟩
  rw [State.pixel, hfb]
  rfl

end Sys2Proof.Machine


/-! SUPPORT. The sprite draw (44_display.md R151 to R154): which cells it touches under each policy, its
faults, and a second draw of the same sprite. -/

namespace Sys2Proof.Machine

theorem wellFormed_fbWidth {c : Config} (h : c.wellFormed = true) : 8 ≤ c.fbWidth := by
  simp only [Config.wellFormed, Bool.and_eq_true, decide_eq_true_eq] at h
  omega

theorem wellFormed_fbHeight {c : Config} (h : c.wellFormed = true) : 15 ≤ c.fbHeight := by
  simp only [Config.wellFormed, Bool.and_eq_true, decide_eq_true_eq] at h
  omega

theorem nibble_eq_zero_iff {n : Nibble} : n.toNat = 0 ↔ n = 0 :=
  (BitVec.toNat_eq (y := 0)).symm

/-! A draw that does not fault. -/

/-- A draw whose rows exist and that the policy does not end goes on to the drawing. -/
theorem drawSprite_inBounds {c : Config} {x y : Reg} {n : Nibble} {s : State}
    (hc : c.oobPolicy ≠ .fault) (hrows : n = 0 ∨ dataBase s + n.toNat ≤ c.memSize) :
    drawSprite c x y n s = advance (composite c (spriteTargets c x y n s) s) := by
  rw [drawSprite, guardSpan_inBounds _ (hrows.imp_left nibble_eq_zero_iff.mpr),
    if_neg fun h => hc h.1]

/-- A draw on a frame of the size R5 asks for, where `On` names the in-frame cells it touches. -/
theorem drawSprite_doneChanging {c : Config} {x y : Reg} {n : Nibble} {s : State}
    {On : Nat → Nat → Prop} (hc : c.oobPolicy ≠ .fault) (hwf : c.wellFormed = true)
    (hrows : n = 0 ∨ dataBase s + n.toNat ≤ c.memSize)
    (hon : ∀ px py, px < c.fbWidth → py < c.fbHeight →
      ((px, py) ∈ (spriteTargets c x y n s).filterMap (placePixel c) ↔ On px py)) :
    ∃ t, drawSprite c x y n s = .next t ∧ Composited c On s t ∧ t.redraw = true ∧
      DoneChanging c [0xF] [.framebuffer, .redraw] (s.pc + 2) s t := by
  have hw := wellFormed_fbWidth hwf
  have hh := wellFormed_fbHeight hwf
  obtain ⟨t, ht, hreg, hkept, hd⟩ := advance_doneChanging (s := s)
    (u := composite c (spriteTargets c x y n s) s) rfl rfl rfl rfl
    (onlyChanged_composite c (spriteTargets c x y n s) s)
  have hfb : t.fb = (composite c (spriteTargets c x y n s) s).fb := hkept .framebuffer
  have hcomp := composite_composited (s := s) (by omega) (by omega) (nodup_placed hw hh) hon
  refine ⟨t, (drawSprite_inBounds hc hrows).trans ht, ?_, hkept .redraw, hd⟩
  simpa only [Composited, State.pixel, hfb, hreg] using hcomp

/-- Settles O48: under `clip` the cells touched are the in-frame cells the sprite covers. -/
theorem drawClippedSprite : Obligations.DrawClippedSprite := by
  intro x y n s
  exact ⟨wordRRN_or x y n rfl, fun hrows =>
    drawSprite_doneChanging (by decide) hw_wellFormed hrows fun _ _ => mem_placed_clip rfl⟩

/-- Settles O49: under `wrap` they are the covered cells with each coordinate reduced. -/
theorem drawWrappedSprite : Obligations.DrawWrappedSprite := by
  intro c x y n s hwf hc hrows
  exact drawSprite_doneChanging (by rw [hc]; decide) hwf hrows fun _ _ _ _ => mem_placed_wrap hc

/-! Faults. -/

theorem drawSprite_outOfMemory {c : Config} {x y : Reg} {n : Nibble} {s : State} (hn : n ≠ 0)
    (h : c.memSize < dataBase s + n.toNat) :
    drawSprite c x y n s = .fault (.memOutOfBounds (max (dataBase s) c.memSize)) :=
  guardSpan_outOfBounds _ (mt nibble_eq_zero_iff.mp hn) h

/-- Settles O50: the memory check comes first under any policy; the frame check looks at the cells
the sprite covers. -/
theorem drawFaultsInOrder : Obligations.DrawFaultsInOrder := by
  refine ⟨fun c x y n s hn h => drawSprite_outOfMemory hn h,
    fun x y n s hn h => drawSprite_outOfMemory (c := Config.hw) hn h,
    fun c x y n s hc hrows hout => ?_⟩
  obtain ⟨px, py, hcovers, hframe⟩ := hout
  have hany : (spriteTargets c x y n s).any (outOfFrame c) = true :=
    List.any_eq_true.mpr ⟨_, mem_spriteTargets.mpr hcovers, decide_eq_true hframe⟩
  rw [drawSprite, guardSpan_inBounds _ (hrows.imp_left nibble_eq_zero_iff.mpr),
    if_pos ⟨hc, hany⟩]

/-! The policies agree in frame. -/

theorem drawPixels_of_inFrame {c : Config} {ts : List (Nat × Nat)} (d : Display)
    (h : ∀ q ∈ ts, outOfFrame c q = false) :
    drawPixels c ts d = ts.foldl (drawPixel c) (false, d) := by
  have hplaced : ts.filterMap (placePixel c) = ts.filterMap some :=
    List.filterMap_congr fun q hq => by simp [placePixel, h q hq]
  rw [drawPixels, hplaced, List.filterMap_some]

theorem Memory.read_setPolicy (c : Config) (p : OobPolicy) (m : Memory) (a : Nat) :
    m.read { c with oobPolicy := p } a = m.read c a := by
  induction m with
  | nil => rfl
  | cons e m ih => rw [Memory.read, Memory.read, ih]

theorem spriteTargets_setPolicy (c : Config) (p : OobPolicy) (x y : Reg) (n : Nibble) (s : State) :
    spriteTargets { c with oobPolicy := p } x y n s = spriteTargets c x y n s := by
  simp only [spriteTargets, Memory.readBytes, Memory.read_setPolicy]

/-- An in-frame draw, whatever the policy `p`: it does not appear on the right. -/
theorem drawSprite_setPolicy_of_inFrame {c : Config} {x y : Reg} {n : Nibble} {s : State}
    (p : OobPolicy) (h : ∀ r ∈ spriteTargets c x y n s, outOfFrame c r = false) :
    drawSprite { c with oobPolicy := p } x y n s = guardSpan c (dataBase s) n.toNat
      (advance (((s.setFb ((spriteTargets c x y n s).foldl (drawPixel c) (false, s.fb)).2).setFlag
        ((spriteTargets c x y n s).foldl (drawPixel c) (false, s.fb)).1).setRedraw true)) := by
  have hany : ¬ (spriteTargets c x y n s).any (outOfFrame { c with oobPolicy := p }) = true := by
    rw [List.any_eq_true]
    rintro ⟨r, hr, hout⟩
    exact Bool.false_ne_true ((h r hr).symm.trans hout)
  rw [drawSprite, spriteTargets_setPolicy, if_neg fun hfault => hany hfault.2, composite,
    drawPixels_of_inFrame (c := { c with oobPolicy := p }) s.fb h]
  rfl

/-- Settles O51: with every target in frame neither the placement nor the frame check asks for the
policy. -/
theorem inFrameDrawsAgreeUnderAllPolicies : Obligations.InFrameDrawsAgreeUnderAllPolicies := by
  intro c p q x y n s h
  have hin : ∀ r ∈ spriteTargets c x y n s, outOfFrame c r = false := by
    rintro ⟨px, py⟩ hr
    have hframe := h px py (mem_spriteTargets.mp hr)
    simpa only [outOfFrame, decide_eq_false_iff_not, not_or, not_le] using hframe
  rw [drawSprite_setPolicy_of_inFrame p hin, drawSprite_setPolicy_of_inFrame q hin]

/-! Two draws of the same cells. -/

/-- The cell of a linear index in the framebuffer. -/
theorem pixel_of_index (c : Config) (s : State) (i : Nat) :
    s.pixel c (i % c.fbWidth) (i / c.fbWidth) = s.fb.cell i := by
  rw [State.pixel, pixelIndex, Nat.div_add_mod']

/-- Flipping the same cells twice restores every cell. -/
theorem Composited.cell_twice {c : Config} {On : Nat → Nat → Prop} {s t u : State}
    (h : Composited c On s t) (h' : Composited c On t u) (i : Nat) :
    u.fb.cell i = s.fb.cell i := by
  obtain ⟨hcell, hout, -, -⟩ := h
  obtain ⟨hcell', hout', -, -⟩ := h'
  by_cases hi : i < c.fbWidth * c.fbHeight
  · have hx : i % c.fbWidth < c.fbWidth := Nat.mod_lt _ (Nat.pos_of_lt_mul_right hi)
    have hy : i / c.fbWidth < c.fbHeight := Nat.div_lt_of_lt_mul hi
    obtain ⟨hflip, hkeep⟩ := hcell _ _ hx hy
    obtain ⟨hflip', hkeep'⟩ := hcell' _ _ hx hy
    rw [← pixel_of_index c u, ← pixel_of_index c s]
    by_cases hon : On (i % c.fbWidth) (i / c.fbWidth)
    · rw [hflip' hon, hflip hon, Bool.not_not]
    · rw [hkeep' hon, hkeep hon]
  · rw [hout' i (not_lt.mp hi), hout i (not_lt.mp hi)]

/-- The flag is 1 where some touched cell was on, and else 0. -/
theorem Composited.flag {c : Config} {On : Nat → Nat → Prop} {s t : State}
    (h : Composited c On s t) :
    (∃ px py, px < c.fbWidth ∧ py < c.fbHeight ∧ On px py ∧ s.pixel c px py = true) ∧
      t.reg 0xF = 1 ∨
    (¬ ∃ px py, px < c.fbWidth ∧ py < c.fbHeight ∧ On px py ∧ s.pixel c px py = true) ∧
      t.reg 0xF = 0 := by
  obtain ⟨-, -, hone, hzero⟩ := h
  by_cases hlit : ∃ px py, px < c.fbWidth ∧ py < c.fbHeight ∧ On px py ∧ s.pixel c px py = true
  · exact .inl ⟨hlit, hone hlit⟩
  · refine .inr ⟨hlit, hzero fun px py hx hy hon => ?_⟩
    exact Bool.eq_false_iff.mpr fun hp => hlit ⟨px, py, hx, hy, hon, hp⟩

/-- The flag of the second draw: some cell the first one touched was off before it. -/
theorem Composited.flag_twice {c : Config} {On : Nat → Nat → Prop} {s t u : State}
    (h : Composited c On s t) (h' : Composited c On t u) :
    (u.reg 0xF = 1 ↔
      ∃ px py, px < c.fbWidth ∧ py < c.fbHeight ∧ On px py ∧ s.pixel c px py = false) ∧
    (u.reg 0xF = 0 ∨ u.reg 0xF = 1) := by
  obtain ⟨hcell, -⟩ := h
  have hflipped : (∃ px py, px < c.fbWidth ∧ py < c.fbHeight ∧ On px py ∧
        t.pixel c px py = true) ↔
      ∃ px py, px < c.fbWidth ∧ py < c.fbHeight ∧ On px py ∧ s.pixel c px py = false := by
    refine exists₂_congr fun px py => and_congr_right fun hx => and_congr_right fun hy =>
      and_congr_right fun hon => ?_
    obtain ⟨hflip, -⟩ := hcell px py hx hy
    rw [hflip hon, Bool.not_eq_true']
  rcases h'.flag with ⟨hlit, hf⟩ | ⟨hlit, hf⟩
  · exact ⟨iff_of_true hf (hflipped.mp hlit), .inr hf⟩
  · exact ⟨iff_of_false (by rw [hf]; decide) (mt hflipped.mpr hlit), .inl hf⟩

theorem spriteCovers_congr {c : Config} {s t : State} (h : ∀ a, t.byteAt c a = s.byteAt c a) :
    SpriteCovers c t = SpriteCovers c s := by
  funext base n vx vy px py
  simp only [SpriteCovers, h]

/-- Dxyn keeps the framebuffer's canonical form. -/
theorem drw_keeps_wf {x y : Reg} {n : Nibble} {s t : State} (h : exec (.drw x y n) s = .next t)
    (hwf : Display.wf Config.hw s.fb) : Display.wf Config.hw t.fb := by
  obtain ⟨-, hend⟩ := exec_next h
  obtain ⟨-, -, hkept, -⟩ := complete_next (c := Config.hw) hend
  have hfb : t.fb = (drawPixels Config.hw (spriteTargets Config.hw x y n s) s.fb).2 :=
    hkept .framebuffer List.not_mem_nil
  rw [hfb]
  exact wf_drawPixels _ (by decide) (by decide) hwf

/-- Settles O52: the first draw keeps `V[x]`, `V[y]`, `I` and memory, so the second one touches the
same cells. -/
theorem drawTwiceRestores : Obligations.DrawTwiceRestores := by
  intro x y n s t hx hy hdraw
  obtain ⟨hrows, -⟩ := exec_next hdraw
  obtain ⟨-, hdraws⟩ := drawClippedSprite x y n s
  obtain ⟨t', ht', hcomp, -, -, hregs, hitems, -⟩ :=
    hdraws (hrows.imp_left nibble_eq_zero_iff.mp)
  obtain rfl := eq_of_next hdraw ht'
  have hvx : t'.reg x = s.reg x := hregs x (by simpa using hx)
  have hvy : t'.reg y = s.reg y := hregs y (by simpa using hy)
  have hbase : dataBase t' = dataBase s := congrArg BitVec.toNat (hitems .index (by decide))
  have hmem : ∀ a, t'.byteAt Config.hw a = s.byteAt Config.hw a := hitems .memory (by decide)
  obtain ⟨-, hdraws'⟩ := drawClippedSprite x y n t'
  rw [hbase, hvx, hvy, spriteCovers_congr hmem] at hdraws'
  obtain ⟨u, hu, hcomp', -, -⟩ := hdraws' (hrows.imp_left nibble_eq_zero_iff.mp)
  obtain ⟨hflag, hbit⟩ := hcomp.flag_twice hcomp'
  exact ⟨u, hu, fun _ _ _ _ => hcomp.cell_twice hcomp' _, fun hwf =>
    Display.ext_of_wf (drw_keeps_wf hu (drw_keeps_wf hdraw hwf)) hwf (hcomp.cell_twice hcomp'),
    hflag, hbit⟩

end Sys2Proof.Machine


/-! SUPPORT. All a step can do (40_cycle.md R90): it faults at its fetch or its decoding, or it runs the
instruction it fetched; and which fault an instruction can answer (60_exceptions.md R170, R178). -/

namespace Sys2Proof.Machine

/-! Fetch and decode. -/

theorem step_of_decode {s : State} {op : Word} {i : Instr} (hfetch : fetch Config.hw s = .ok op)
    (hdecode : decode op = some i) : step s = exec i s := by
  simp only [step, cycle, hfetch, hdecode]

theorem step_of_unknown {s : State} {op : Word} (hfetch : fetch Config.hw s = .ok op)
    (hdecode : decode op = none) : step s = .fault (.unknownOpcode op) := by
  simp only [step, cycle, hfetch, hdecode]

/-- All a step can do, in the order of its phases. -/
theorem step_cases (s : State) :
    (4095 ≤ s.pc.toNat + 1 ∧ step s = .fault (.fetchOutOfBounds s.pc)) ∨
    (∃ op, fetch Config.hw s = .ok op ∧ decode op = none ∧ step s = .fault (.unknownOpcode op)) ∨
    ∃ i, fetched Config.hw s = some i ∧ step s = exec i s := by
  rcases fetch_cases Config.hw s with ⟨-, hfetch⟩ | ⟨hb, hfetch⟩
  · refine .inr ?_
    cases hdecode : decode (wordOfBytes (s.byteAt Config.hw s.pc.toNat)
      (s.byteAt Config.hw (s.pc.toNat + 1))) with
    | none => exact .inl ⟨_, hfetch, hdecode, step_of_unknown hfetch hdecode⟩
    | some i =>
      exact .inr ⟨i, by rw [fetched, hfetch]; exact hdecode, step_of_decode hfetch hdecode⟩
  · exact .inl ⟨hb, step_of_fetch_error hfetch⟩

/-- The word of the two bytes at `pc`, the first the high-order one. -/
theorem fetch_of_bytes {s : State} {op : Word} (hb : s.pc.toNat + 1 < 4095)
    (hop : op.toNat = (s.byteAt Config.hw s.pc.toNat).toNat * 256 +
      (s.byteAt Config.hw (s.pc.toNat + 1)).toNat) : fetch Config.hw s = .ok op := by
  rw [fetch, if_pos (show s.pc.toNat + 1 < Config.hw.memSize from hb), wordOfBytes, ← hop,
    BitVec.ofNat_toNat, BitVec.setWidth_eq]

/-- Settles O7: the two bytes are the fetched word, and `step` adds nothing to `exec`. -/
theorem stepRunsTheDecodedInstruction : Obligations.StepRunsTheDecodedInstruction :=
  fun _ _ _ hb hop hdecode => step_of_decode (fetch_of_bytes hb hop) hdecode

/-- Settles O8: the fetch faults, and a faulting transaction leaves the state. -/
theorem fetchBeyondMemoryFaults : Obligations.FetchBeyondMemoryFaults := fun _ h =>
  ⟨step_of_fetchOutOfBounds h, transact_step_fault (step_of_fetchOutOfBounds h)⟩

/-- Settles O9: the fetched word does not decode, and a faulting transaction leaves the state. -/
theorem unknownOpcodeFaults : Obligations.UnknownOpcodeFaults := by
  intro s op hb hop hdecode
  have hfault := step_of_unknown (fetch_of_bytes hb hop) hdecode
  exact ⟨hfault, transact_step_fault hfault⟩

/-! The faults of an instruction. -/

/-- The instruction `i` has reason to answer the fault at `s`, and the fault reports its info. -/
def FaultCause (s : State) : Instr → Fault → Prop
  | .call _, .stackOverflow p => p = s.pc ∧ 16 ≤ s.stack.length
  | .ret, .stackUnderflow p => p = s.pc ∧ s.stack = []
  | .ldB _, .memOutOfBounds a => a = max s.index.toNat 4095 ∧ 4095 ≤ s.index.toNat + 2
  | .storeRegs x, .memOutOfBounds a | .loadRegs x, .memOutOfBounds a =>
    a = max s.index.toNat 4095 ∧ 4095 ≤ s.index.toNat + x.toNat
  | .drw _ _ n, .memOutOfBounds a =>
    a = max s.index.toNat 4095 ∧ n ≠ 0 ∧ 4095 ≤ s.index.toNat + n.toNat - 1
  | _, _ => False

/-- A block of `len + 1` bytes at `I`: its access completes as `advance u` or has its fault. -/
theorem guardSpan_advance_cases (s u : State) (len : Nat) :
    (∃ t, guardSpan Config.hw (dataBase s) (len + 1) (advance u) = .next t) ∨
    4095 ≤ s.index.toNat + len ∧ guardSpan Config.hw (dataBase s) (len + 1) (advance u) =
      .fault (.memOutOfBounds (max s.index.toNat 4095)) := by
  rcases guardSpan_eq Config.hw (dataBase s) (len + 1) (advance u) with ⟨-, he⟩ | ⟨⟨-, hb⟩, he⟩
  · exact .inl ⟨_, he⟩
  · exact .inr ⟨Nat.le_of_lt_succ hb, he⟩

/-- An instruction answers a next state or a fault it has reason for. The cases without a name are
those that always complete. -/
theorem exec_cases (i : Instr) (s : State) :
    (∃ t, exec i s = .next t) ∨ ∃ f, exec i s = .fault f ∧ FaultCause s i f := by
  cases i
  case ret =>
    cases hs : s.stack with
    | nil => exact .inr ⟨_, ret_of_nil hs, rfl, hs⟩
    | cons w l => exact .inl ⟨_, ret_of_cons hs⟩
  case call nnn =>
    rcases lt_or_ge s.stack.length 16 with hs | hs
    · exact .inl ⟨_, call_of_room (c := Config.hw) nnn hs⟩
    · exact .inr ⟨_, call_of_full (c := Config.hw) nnn hs, rfl, hs⟩
  case ldVxK x =>
    cases hk : s.lowestKey with
    | none => exact .inl ⟨_, by simp only [exec, execLdVxK, hk]; rfl⟩
    | some k => exact .inl ⟨_, by simp only [exec, execLdVxK, hk]; rfl⟩
  case drw x y n =>
    by_cases hrows : n = 0 ∨ dataBase s + n.toNat ≤ 4095
    · exact .inl ⟨_, drawSprite_inBounds (by decide) hrows⟩
    · obtain ⟨hn, hb⟩ := not_or.mp hrows
      exact .inr ⟨_, drawSprite_outOfMemory hn (not_le.mp hb), rfl, hn,
        Nat.le_sub_one_of_lt (not_le.mp hb)⟩
  case ldB x => exact (guardSpan_advance_cases s _ 2).imp_right fun ⟨hb, he⟩ => ⟨_, he, rfl, hb⟩
  case storeRegs x | loadRegs x =>
    exact (guardSpan_advance_cases s _ x.toNat).imp_right fun ⟨hb, he⟩ => ⟨_, he, rfl, hb⟩
  all_goals exact .inl ⟨_, rfl⟩

/-- Settles O24: the phases of a step one by one, the last by `exec_cases`. -/
theorem stepCompletesOrFaults : Obligations.StepCompletesOrFaults := by
  intro s
  rcases step_cases s with ⟨-, h⟩ | ⟨op, -, -, h⟩ | ⟨i, -, h⟩
  · exact .inr ⟨_, h⟩
  · exact .inr ⟨_, h⟩
  · rw [h]
    exact (exec_cases i s).imp_right fun ⟨f, hf, _⟩ => ⟨f, hf⟩

theorem exec_fault {i : Instr} {s : State} {f : Fault} (h : exec i s = .fault f) :
    FaultCause s i f := by
  rcases exec_cases i s with ⟨t, ht⟩ | ⟨f', hf, hcause⟩
  · rw [h] at ht
    cases ht
  · rw [h] at hf
    injection hf with e
    exact e ▸ hcause

theorem eq_of_fault {r : Result} {f f' : Fault} (h : r = .fault f) (h' : r = .fault f') :
    f' = f := by
  rw [h] at h'
  injection h' with e
  exact e.symm

/-- Settles O23: the first two causes are the phases' own, the others those of `FaultCause`. -/
theorem faultsHaveTheirCauses : Obligations.FaultsHaveTheirCauses := by
  intro s f hf
  rcases step_cases s with ⟨hb, h⟩ | ⟨op, hfetch, hdecode, h⟩ | ⟨i, hi, h⟩
  · obtain rfl := eq_of_fault hf h
    exact ⟨rfl, hb⟩
  · obtain rfl := eq_of_fault hf h
    exact ⟨hfetch, hdecode⟩
  · have hcause := exec_fault (h.symm.trans hf)
    cases f with
    | fetchOutOfBounds p => cases i <;> exact hcause.elim
    | unknownOpcode op => cases i <;> exact hcause.elim
    | spriteOutOfFrame p => cases i <;> exact hcause.elim
    | stackOverflow p =>
      cases i
      case call nnn =>
        obtain ⟨hp, hfull⟩ := hcause
        exact ⟨hp, ⟨nnn, hi⟩, hfull⟩
      all_goals exact hcause.elim
    | stackUnderflow p =>
      cases i
      case ret =>
        obtain ⟨hp, hempty⟩ := hcause
        exact ⟨hp, hi, hempty⟩
      all_goals exact hcause.elim
    | memOutOfBounds a =>
      cases i
      case ldB x =>
        obtain ⟨ha, hend⟩ := hcause
        exact ⟨ha, .inl ⟨x, hi, hend⟩⟩
      case storeRegs x =>
        obtain ⟨ha, hend⟩ := hcause
        exact ⟨ha, .inr (.inl ⟨x, .inl hi, hend⟩)⟩
      case loadRegs x =>
        obtain ⟨ha, hend⟩ := hcause
        exact ⟨ha, .inr (.inl ⟨x, .inr hi, hend⟩)⟩
      case drw x y n =>
        obtain ⟨ha, hend⟩ := hcause
        exact ⟨ha, .inr (.inr ⟨x, y, n, hi, hend⟩)⟩
      all_goals exact hcause.elim

end Sys2Proof.Machine


/-! SUPPORT. What every completed step does to the timers and to `waiting` (40_cycle.md R94, R97). -/

namespace Sys2Proof.Machine

/-- The delay timer's value that the tick of a completed instruction finds: Fx15 wrote it before. -/
def dtFound : Instr → State → Byte
  | .ldDtVx x, s => s.reg x
  | _, s => s.dt

/-- The sound timer's value that the tick of a completed instruction finds: Fx18 wrote it before. -/
def stFound : Instr → State → Byte
  | .ldStVx x, s => s.reg x
  | _, s => s.st

theorem dtFound_of_ne {i : Instr} (s : State) (h : ∀ x, i ≠ .ldDtVx x) : dtFound i s = s.dt := by
  cases i
  case ldDtVx x => exact absurd rfl (h x)
  all_goals rfl

theorem stFound_of_ne {i : Instr} (s : State) (h : ∀ x, i ≠ .ldStVx x) : stFound i s = s.st := by
  cases i
  case ldStVx x => exact absurd rfl (h x)
  all_goals rfl

theorem complete_ticked {next : Word} {dt0 st0 : Byte} {s u t : State}
    (h : complete next u = .next t) (hdt : u.dt = dt0) (hst : u.st = st0)
    (hbeeps : u.beeps = s.beeps) : t.waiting = false ∧ TickedFrom dt0 st0 s t := by
  subst hdt hst
  obtain ⟨⟨⟨htdt, htst, htbeeps⟩, -, hw⟩, -⟩ := complete_next (c := Config.hw) h
  exact ⟨hw, htdt, htst, by rw [htbeeps, hbeeps]⟩

/-- An instruction that answers a next state has ended its cycle with a tick, or it is Fx0A waiting
for a key. No instruction's own effect emits a beep, and only Fx15 and Fx18 write a timer. -/
theorem exec_ticked_or_waits {i : Instr} {s t : State} (h : exec i s = .next t) :
    (t.waiting = false ∧ TickedFrom (dtFound i s) (stFound i s) s t) ∨
    ∃ x, i = .ldVxK x ∧ (∀ k, s.key k = false) ∧ t = s.setWaiting true := by
  have hend := exec_next h
  cases i
  case ret =>
    obtain ⟨w, l, -, hend⟩ := hend
    exact .inl (complete_ticked hend rfl rfl rfl)
  case ldVxK x =>
    rcases hend with ⟨hk, rfl⟩ | ⟨k, -, hend⟩
    · exact .inr ⟨x, rfl, lowestKey_eq_none.mp hk, rfl⟩
    · exact .inl (complete_ticked hend rfl rfl rfl)
  case call | drw | ldB | storeRegs => exact .inl (complete_ticked hend.2 rfl rfl rfl)
  case loadRegs =>
    exact .inl (complete_ticked hend.2 (by simp [dtFound]) (by simp [stFound]) (by simp))
  all_goals exact .inl (complete_ticked hend rfl rfl rfl)

theorem step_ticked_or_waits {s t : State} (h : step s = .next t) :
    ∃ i, fetched Config.hw s = some i ∧ exec i s = .next t ∧
      ((t.waiting = false ∧ TickedFrom (dtFound i s) (stFound i s) s t) ∨
      ∃ x, i = .ldVxK x ∧ (∀ k, s.key k = false) ∧ t = s.setWaiting true) := by
  obtain ⟨-, i, hfetched, hi⟩ := cycle_next h
  exact ⟨i, hfetched, hi, exec_ticked_or_waits hi⟩

/-- Settles O11: the tick of the fetched instruction, or the wait, which leaves the timers. -/
theorem timersTickOncePerCompletedCycle : Obligations.TimersTickOncePerCompletedCycle := by
  intro s t h
  obtain ⟨i, hfetched, -, ⟨hw, htick⟩ | ⟨x, -, -, rfl⟩⟩ := step_ticked_or_waits h
  · refine ⟨fun _ => ⟨i, hfetched, ?_, ?_, fun hne => ?_⟩, fun hw' => ?_⟩
    · rintro x rfl
      exact htick
    · rintro x rfl
      exact htick
    · rwa [dtFound_of_ne s fun x => (hne x).1, stFound_of_ne s fun x => (hne x).2] at htick
    · exact absurd (hw.symm.trans hw') Bool.false_ne_true
  · exact ⟨fun hw => absurd hw.symm Bool.false_ne_true, fun _ => ⟨rfl, rfl, rfl⟩⟩

/-- Settles O12: a step that does not wait has ticked, and its beep bit says what the tick found. -/
theorem waitingComesOnlyFromTheKeyWait : Obligations.WaitingComesOnlyFromTheKeyWait := by
  intro s t h
  have hreply := transact_step_next h
  obtain ⟨i, hfetched, hi, ⟨hw, htick⟩ | ⟨x, rfl, hk, rfl⟩⟩ := step_ticked_or_waits h
  · rw [hw, if_neg Bool.false_ne_true, htick.beeped] at hreply
    refine ⟨iff_of_false (by simp [hw]) ?_, fun hw' => ?_, fun _ => ⟨i, hfetched, ?_, fun hne => ?_⟩⟩
    · rintro ⟨x, hx, hk⟩
      obtain rfl : i = .ldVxK x := Option.some.inj (hfetched.symm.trans hx)
      obtain ⟨-, -, hwaits⟩ := keyWaitCompletesOrWaits x s
      obtain rfl := eq_of_next hi (hwaits hk)
      cases hw
    · exact absurd (hw.symm.trans hw') Bool.false_ne_true
    · rintro x rfl
      exact hreply
    · rwa [stFound_of_ne s hne] at hreply
  · exact ⟨iff_of_true rfl ⟨x, hfetched, hk⟩, fun _ => ⟨rfl, hreply⟩,
      fun hw => absurd hw.symm Bool.false_ne_true⟩

/-! `waiting` is read nowhere (10_state.md R31). -/

theorem call_setWaiting (c : Config) (nnn : Addr12) (s : State) (b : Bool) :
    call c nnn (s.setWaiting b) = call c nnn s := by
  rcases lt_or_ge s.stack.length c.stackDepth with hs | hs
  · rw [call_of_room nnn hs, call_of_room (s := s.setWaiting b) nnn hs]
    rfl
  · rw [call_of_full nnn hs, call_of_full (s := s.setWaiting b) nnn hs]
    rfl

theorem ret_setWaiting (s : State) (b : Bool) : ret (s.setWaiting b) = ret s := by
  cases hs : s.stack with
  | nil => rw [ret_of_nil hs, ret_of_nil (s := s.setWaiting b) hs]; rfl
  | cons w l => rw [ret_of_cons hs, ret_of_cons (s := s.setWaiting b) hs]; rfl

/-- Without a named case are the instructions whose two sides are the same by unfolding: each ends
with `complete`, which sets `waiting`. -/
theorem exec_setWaiting (i : Instr) (s : State) (b : Bool) :
    exec i (s.setWaiting b) = exec i s := by
  cases i
  case ret => exact ret_setWaiting s b
  case call nnn => exact call_setWaiting Config.hw nnn s b
  case ldVxK x =>
    have hkey : (s.setWaiting b).lowestKey = s.lowestKey := rfl
    simp only [exec, execLdVxK, hkey]
    cases s.lowestKey <;> rfl
  all_goals rfl

/-- Settles O13: neither the fetch nor any instruction reads `waiting`. -/
theorem waitingIsNeverRead : Obligations.WaitingIsNeverRead := by
  intro s b
  have hfetch : fetch Config.hw (s.setWaiting b) = fetch Config.hw s := rfl
  simp only [step, cycle, hfetch, exec_setWaiting]

end Sys2Proof.Machine


/-! SUPPORT. The frame of every instruction: the registers and items it can write (10_state.md R21 to
R29), and that it changes nothing else. -/

namespace Sys2Proof.Machine

/-- The registers an instruction can write. -/
def regsOf : Instr → List Reg
  | .ldImm x _ | .addImm x _ | .rnd x _ => [x]
  | .ldReg x _ | .orReg x _ | .andReg x _ | .xorReg x _ => [x]
  | .addReg x _ | .subReg x _ | .shr x _ | .subn x _ | .shl x _ => [x, 0xF]
  | .addI _ | .drw _ _ _ => [0xF]
  | .ldVxDt x | .ldVxK x => [x]
  | .loadRegs x => allRegs.filter (· ≤ x)
  | _ => []

/-- The items an instruction can write. -/
def itemsOf : Instr → List Item
  | .cls | .drw _ _ _ => [.framebuffer, .redraw]
  | .ret | .call _ => [.stack]
  | .ldI _ | .addI _ | .ldF _ | .loadRegs _ => [.index]
  | .ldB _ => [.memory]
  | .storeRegs _ => [.memory, .index]
  | .rnd _ _ => [.draws]
  | _ => []

/-- The end of the cycle adds nothing to the frame of the instruction's own effect. -/
theorem complete_onlyChanged {c : Config} {regs : List Reg} {items : List Item} {next : Word}
    {s u t : State} (h : complete next u = .next t) (honly : OnlyChanged c regs items s u) :
    OnlyChanged c regs items s t := by
  obtain ⟨-, hend⟩ := complete_next (c := c) h
  simpa only [List.append_nil] using honly.trans hend

theorem onlyChanged_setWaiting (c : Config) (regs : List Reg) (items : List Item) (s : State)
    (b : Bool) : OnlyChanged c regs items s (s.setWaiting b) :=
  ⟨fun _ _ => rfl, fun k _ => by cases k <;> simp [Kept], rfl⟩

/-- An instruction that answers a next state changed only the registers of `regsOf` and the items of
`itemsOf`; the cases go by the update that is the instruction's own effect. -/
theorem exec_onlyChanged {i : Instr} {s t : State} (h : exec i s = .next t) :
    OnlyChanged Config.hw (regsOf i) (itemsOf i) s t := by
  have hend := exec_next h
  cases i
  case cls =>
    exact complete_onlyChanged hend
      ((onlyChanged_setFb _ s _).trans (onlyChanged_setRedraw _ _ _))
  case ret =>
    obtain ⟨w, l, -, hend⟩ := hend
    exact complete_onlyChanged hend (onlyChanged_setStack _ s _)
  case call nnn => exact complete_onlyChanged hend.2 (onlyChanged_setStack _ s _)
  case ldImm | addImm | ldReg | orReg | andReg | xorReg | ldVxDt =>
    exact complete_onlyChanged hend (onlyChanged_setReg _ s _ _)
  case addReg | subReg | shr | subn | shl =>
    exact complete_onlyChanged hend (onlyChanged_setRegAndFlag _ s _ _ _)
  case ldI | ldF => exact complete_onlyChanged hend (onlyChanged_setIndex _ s _)
  case addI x =>
    exact complete_onlyChanged hend
      ((onlyChanged_setIndex _ s _).trans (onlyChanged_setReg _ _ 0xF _))
  case rnd x kk =>
    exact complete_onlyChanged hend
      ((onlyChanged_setReg _ s x _).trans (onlyChanged_countDraw _ _))
  case drw x y n => exact complete_onlyChanged hend.2 (onlyChanged_composite _ _ s)
  case ldVxK x =>
    obtain ⟨-, rfl⟩ | ⟨k, -, hend⟩ := hend
    · exact onlyChanged_setWaiting _ _ _ s true
    · exact complete_onlyChanged hend (onlyChanged_setReg _ s _ _)
  case ldDtVx x => exact complete_onlyChanged hend (onlyChanged_setDt _ s _)
  case ldStVx x => exact complete_onlyChanged hend (onlyChanged_setSt _ s _)
  case ldB x => exact complete_onlyChanged hend.2 (onlyChanged_setMem _ s _)
  case storeRegs x =>
    exact complete_onlyChanged hend.2
      ((onlyChanged_setMem _ s _).trans (onlyChanged_setIndex _ _ _))
  case loadRegs x =>
    have honly := (onlyChanged_setRegsUpTo Config.hw s x
      fun k => s.byteAt Config.hw (dataBase s + k)).trans
      (onlyChanged_setIndex _ _ (indexAfterBlock x s))
    rw [List.append_nil] at honly
    exact complete_onlyChanged hend.2 honly
  all_goals exact complete_onlyChanged hend (onlyChanged_refl _ s)

/-- An item that an instruction changed is one it can write. -/
theorem mem_itemsOf {i : Instr} {s t : State} {k : Item} (h : exec i s = .next t)
    (hk : ¬ Kept Config.hw k s t) : k ∈ itemsOf i := by
  obtain ⟨-, hitems, -⟩ := exec_onlyChanged h
  exact by_contra fun hmem => hk (hitems k hmem)

theorem mem_regsOf {i : Instr} {s t : State} {r : Reg} (h : exec i s = .next t)
    (hr : t.reg r ≠ s.reg r) : r ∈ regsOf i := by
  obtain ⟨hregs, -, -⟩ := exec_onlyChanged h
  exact by_contra fun hmem => hr (hregs r hmem)

/-- Settles O16: the writers of each item, read off `itemsOf`. -/
theorem itemsChangeOnlyByTheirWriters : Obligations.ItemsChangeOnlyByTheirWriters := by
  intro i s t h
  refine ⟨fun hi => ?_, fun hi => ?_, fun ⟨a, hi⟩ => ?_, fun hi => ?_⟩
  · have hmem : .index ∈ itemsOf i := mem_itemsOf h hi
    cases i <;> simp [itemsOf] at hmem ⊢
  · have hmem : .stack ∈ itemsOf i := mem_itemsOf h hi
    cases i <;> simp [itemsOf] at hmem ⊢
  · have hmem : .memory ∈ itemsOf i := mem_itemsOf h fun hkept => hi (hkept a)
    cases i <;> simp [itemsOf] at hmem ⊢
  · have hmem : .framebuffer ∈ itemsOf i ∨ .redraw ∈ itemsOf i :=
      hi.imp (mem_itemsOf h) (mem_itemsOf h)
    cases i <;> simp [itemsOf] at hmem ⊢

/-! The flag register. -/

theorem flagByte_zero_or_one (b : Bool) : flagByte b = 0 ∨ flagByte b = 1 := by
  cases b
  · exact .inl rfl
  · exact .inr rfl

/-- A flag that an effect left in `VF` is there at the end of the cycle. -/
theorem complete_flag {next : Word} {u t : State} {b : Bool} (h : complete next u = .next t)
    (hu : u.reg 0xF = flagByte b) : t.reg 0xF = 0 ∨ t.reg 0xF = 1 := by
  obtain ⟨-, hregs, -⟩ := complete_next (c := Config.hw) h
  rw [hregs 0xF List.not_mem_nil, hu]
  exact flagByte_zero_or_one b

theorem setRegAndFlag_flag (s : State) (x : Reg) (a : Byte) (b : Bool) :
    (s.setRegAndFlag x a b).reg 0xF = flagByte b := by
  rw [State.setRegAndFlag_reg, if_pos rfl]

theorem eq_fifteen_of_le : ∀ x : Reg, 0xF ≤ x → x = 0xF := by decide

/-- Settles O17: the seven flag writers end with the flag; of the others, those whose `regsOf` can
hold `VF`. -/
theorem flagRegisterChangesOnlyByItsWriters :
    Obligations.FlagRegisterChangesOnlyByItsWriters := by
  intro i s t h
  refine ⟨?_, fun hr => ?_⟩
  · have hend := exec_next h
    rintro (⟨x, y, rfl | rfl | rfl | rfl | rfl⟩ | ⟨x, rfl⟩ | ⟨x, y, n, rfl⟩)
    · exact complete_flag hend (setRegAndFlag_flag ..)
    · exact complete_flag hend (setRegAndFlag_flag ..)
    · exact complete_flag hend (setRegAndFlag_flag ..)
    · exact complete_flag hend (setRegAndFlag_flag ..)
    · exact complete_flag hend (setRegAndFlag_flag ..)
    · exact complete_flag hend (by rw [State.setFlag_reg, if_pos rfl])
    · exact complete_flag hend.2
        (by rw [composite, State.setRedraw_reg, State.setFlag_reg, if_pos rfl])
  · have hmem := mem_regsOf h hr
    cases i
    case loadRegs x =>
      obtain ⟨-, hle⟩ := List.mem_filter.mp hmem
      obtain rfl := eq_fifteen_of_le x (of_decide_eq_true hle)
      simp
    case addReg | subReg | shr | subn | shl | addI | drw => simp
    case ldImm | addImm | rnd | ldReg | orReg | andReg | xorReg | ldVxDt | ldVxK =>
      obtain rfl := List.mem_singleton.mp hmem
      simp
    all_goals exact absurd hmem List.not_mem_nil

end Sys2Proof.Machine


/-! SUPPORT. Construction and the host's transactions besides `Step` (70_reset_and_hazards.md R200 to
R203, 60_exceptions.md R183, 44_display.md R155). -/

namespace Sys2Proof.Machine

/-! Construction. -/

theorem State.reset_reg (r : Reg) : State.reset.reg r = 0 :=
  Vector.getElem_replicate ..

theorem State.reset_key (k : Nibble) : State.reset.key k = false :=
  Vector.getElem_replicate ..

theorem wellFormed_glyphs {c : Config} (h : c.wellFormed = true) : c.glyphs.length = 80 := by
  simp only [Config.wellFormed, Bool.and_eq_true, decide_eq_true_eq] at h
  omega

/-- Settles O18: the fields by unfolding; no byte is listed, so every byte reads its construction
contents. -/
theorem resetState : Obligations.ResetState := by
  refine ⟨State.reset_reg, rfl, rfl, rfl, rfl, rfl, rfl, rfl, State.reset_key,
    fun _ _ _ => rfl, fun c hwf => ⟨fun a b _ hb => ?_, fun a ha => ?_⟩⟩
  · change c.glyphs.getD a 0 = b
    rw [List.getD_eq_getElem?_getD, hb, Option.getD_some]
  · change c.glyphs.getD a 0 = 0
    exact List.getD_eq_default _ _ (by rwa [wellFormed_glyphs hwf])

/-! `Load`, `KeyUpdate` and `FrameQuery`. -/

theorem onlyChanged_setPc (c : Config) (s : State) (w : Word) :
    OnlyChanged c [] [] s (s.setPc w) :=
  ⟨fun _ _ => rfl, fun k _ => by cases k <;> simp [Kept], rfl⟩

/-- Settles O57: an accepted image is a block write at the text offset, then `pc` and `waiting`. -/
theorem loadCopiesTheImageOrChangesNothing :
    Obligations.LoadCopiesTheImageOrChangesNothing := by
  intro bytes s
  have hroom : Config.hw.memSize - Config.hw.textOffset = 3583 := rfl
  refine ⟨fun h => ⟨((s.setMem (s.mem.writeBytes Config.hw 0x200 bytes)).setPc 0x200).setWaiting
      false, ?_, rfl, rfl, rfl, rfl, rfl, fun k b hb => ?_, fun a ha => ?_, ?_⟩,
    fun h => ?_⟩
  · simp only [transact, load, hroom, if_neg (not_lt.mpr h)]
    rfl
  · exact Memory.read_writeBytes_inside _ _ hb
  · exact Memory.read_writeBytes_outside ha
  · exact ((onlyChanged_setMem _ s _).trans (onlyChanged_setPc _ _ _)).trans
      (onlyChanged_setWaiting _ [] [] _ _)
  · simp only [transact, load, hroom, if_pos h]

/-- Settles O58: the index picks the key of its number, and a bad index is refused. -/
theorem keyUpdateSetsOneKey : Obligations.KeyUpdateSetsOneKey := by
  intro k p s
  refine ⟨fun ⟨h0, h15⟩ => ?_, fun h => ?_⟩
  · have h16 : k < 16 := by omega
    refine ⟨_, transact_keyUpdate_inRange p s h0 h16, fun q => ?_, rfl⟩
    simp only [State.setKey_key, eq_ofInt_iff_toNat_eq q h0 h16]
  · simp only [transact, keyUpdate, if_neg (show ¬ (0 ≤ k ∧ k < 16) by omega)]

/-- Settles O59: column and row of a row-major index, and the refusal outside the frame. -/
theorem frameQueryReadsRowMajor : Obligations.FrameQueryReadsRowMajor := by
  intro s
  refine ⟨fun px py hx hy => ?_, fun i hi => ?_⟩
  · have hindex : ((py : Int) * 64 + px).toNat = py * 64 + px := by omega
    have hin : 0 ≤ (py : Int) * 64 + px ∧ (py : Int) * 64 + px < (64 : Nat) * (32 : Nat) := by
      omega
    have hcol : (py * 64 + px) % 64 = px := by omega
    have hrow : (py * 64 + px) / 64 = py := by omega
    simp only [transact, frameQuery, hw_fbWidth, hw_fbHeight, if_pos hin, hindex, hcol, hrow]
  · have hout : ¬ (0 ≤ i ∧ i < Config.hw.fbWidth * Config.hw.fbHeight) := by
      rw [hw_fbWidth, hw_fbHeight]
      omega
    simp only [transact, frameQuery, if_neg hout]

end Sys2Proof.Machine


/-! SUPPORT. Runs (70_reset_and_hazards.md R213): where one ends, and the run of a jump to itself. -/

namespace Sys2Proof.Machine

/-! The replies that end a run. -/

theorem transact_ne_refused (a : Transaction) (s : State) (r : Refusal) :
    (transact a s).2 ≠ .refused r := by
  cases a with
  | step =>
    rcases stepCompletesOrFaults s with ⟨t, h⟩ | ⟨f, h⟩
    · rw [transact_step_next h]
      dsimp only
      split_ifs <;> exact Reply.noConfusion
    · rw [transact_step_fault h]
      exact Reply.noConfusion
  | load bytes => simp only [transact]; split <;> exact Reply.noConfusion
  | keyUpdate k p => simp only [transact]; split <;> exact Reply.noConfusion
  | frameQuery i => simp only [transact]; split <;> exact Reply.noConfusion
  | redrawPending => exact Reply.noConfusion
  | clearRedraw => exact Reply.noConfusion

theorem Reply.endsRun_iff_fatal {r : Reply} (h : ∀ e, r ≠ .refused e) :
    r.endsRun = true ↔ r.severity = some .fatal := by
  cases r
  case refused e => exact absurd rfl (h e)
  all_goals simp [Reply.endsRun, Reply.severity]

/-- The reply of a transaction ends a run exactly if its severity is fatal. -/
theorem endsRun_transact (a : Transaction) (s : State) :
    (transact a s).2.endsRun = true ↔ (transact a s).2.severity = some .fatal :=
  Reply.endsRun_iff_fatal (transact_ne_refused a s)

/-! A run, by induction over the transactions. -/

/-- The run is the transactions it has replies for, one after the other. -/
theorem hostRun_state (l : List Transaction) (s : State) :
    (hostRun l s).state = runTransactions (l.take (hostRun l s).replies.length) s := by
  induction l generalizing s with
  | nil => rfl
  | cons a l ih =>
    cases h : (transact a s).2.endsRun with
    | true => rw [hostRun_ends l h]; exact (transact_endsRun h).symm
    | false => rw [hostRun_goesOn l h]; exact ih _

/-- Each reply is the one its transaction gives in the state before it. -/
theorem hostRun_reply (l : List Transaction) (s : State) {k : Nat} {a : Transaction} {r : Reply}
    (ha : l[k]? = some a) (hr : (hostRun l s).replies[k]? = some r) :
    r = (transact a (runTransactions (l.take k) s)).2 := by
  induction l generalizing s k with
  | nil => cases ha
  | cons b l ih =>
    cases h : (transact b s).2.endsRun with
    | true =>
      rw [hostRun_ends l h] at hr
      cases k with
      | zero => cases ha; cases hr; rfl
      | succ k => cases hr
    | false =>
      rw [hostRun_goesOn l h] at hr
      cases k with
      | zero => cases ha; cases hr; rfl
      | succ k => exact ih _ ha hr

/-- A run that did not fail made every transaction, and no reply is fatal. -/
theorem hostRun_of_safe (l : List Transaction) (s : State) (hsafe : (hostRun l s).failed = false) :
    (hostRun l s).replies.length = l.length ∧
      ∀ r ∈ (hostRun l s).replies, r.severity ≠ some .fatal := by
  induction l generalizing s with
  | nil => exact ⟨rfl, List.forall_mem_nil _⟩
  | cons a l ih =>
    cases h : (transact a s).2.endsRun with
    | true => rw [hostRun_ends l h] at hsafe; cases hsafe
    | false =>
      rw [hostRun_goesOn l h] at hsafe ⊢
      obtain ⟨hlen, hfatal⟩ := ih _ hsafe
      refine ⟨congrArg (· + 1) hlen, List.forall_mem_cons.mpr ⟨fun hsev => ?_, hfatal⟩⟩
      exact Bool.false_ne_true (h.symm.trans ((endsRun_transact a s).mpr hsev))

/-- The run ended in failure with `front` and then the one fatal reply `r`, which changed nothing,
and the transactions after that one do not matter. -/
structure FailedAfter (l : List Transaction) (s : State) (front : List Reply) (r : Reply) :
    Prop where
  replies : (hostRun l s).replies = front ++ [r]
  fatal : r.severity = some .fatal
  safe : ∀ q ∈ front, q.severity ≠ some .fatal
  state : (hostRun l s).state = runTransactions (l.take front.length) s
  rest : ∀ rest, hostRun (l.take (front.length + 1) ++ rest) s = hostRun l s

/-- A run that failed ended at its first fatal reply. -/
theorem hostRun_of_failed (l : List Transaction) (s : State) (hfailed : (hostRun l s).failed = true) :
    ∃ front r, FailedAfter l s front r := by
  induction l generalizing s with
  | nil => cases hfailed
  | cons a l ih =>
    cases h : (transact a s).2.endsRun with
    | true =>
      refine ⟨[], _, ?_, (endsRun_transact a s).mp h, List.forall_mem_nil _, ?_, fun rest => ?_⟩
      · rw [hostRun_ends l h]; rfl
      · rw [hostRun_ends l h]; rfl
      · exact (hostRun_ends _ h).trans (hostRun_ends l h).symm
    | false =>
      have hrun := hostRun_goesOn l h
      rw [hrun] at hfailed
      obtain ⟨front, r, hreplies, hfatal, hsafe, hstate, hrest⟩ := ih _ hfailed
      refine ⟨(transact a s).2 :: front, r, ?_, hfatal,
        List.forall_mem_cons.mpr ⟨fun hsev => ?_, hsafe⟩, ?_, fun rest => ?_⟩
      · rw [hrun]; exact congrArg _ hreplies
      · exact Bool.false_ne_true (h.symm.trans ((endsRun_transact a s).mpr hsev))
      · rw [hrun]; exact hstate
      · rw [hrun, ← hrest rest]; exact hostRun_goesOn _ h

/-! A jump to its own address. -/

theorem fetched_eq_some {c : Config} {s : State} {i : Instr} :
    fetched c s = some i ↔ ∃ op, fetch c s = .ok op ∧ decode op = some i := by
  unfold fetched
  cases fetch c s <;> simp

theorem step_of_fetched {s : State} {i : Instr} (h : fetched Config.hw s = some i) :
    step s = exec i s := by
  obtain ⟨op, hfetch, hdecode⟩ := fetched_eq_some.mp h
  exact step_of_decode hfetch hdecode

/-- The fetch depends on `pc` and memory alone. -/
theorem fetched_congr {c : Config} {s t : State} (hpc : t.pc = s.pc)
    (hmem : ∀ a, t.byteAt c a = s.byteAt c a) : fetched c t = fetched c s := by
  simp only [fetched, fetch, hpc, hmem]

/-- One `Step` at a jump to its own address: it completes there, with a tick. -/
theorem transact_step_jumpToSelf {nnn : Addr12} {s : State}
    (hfetched : fetched Config.hw s = some (.jp nnn)) (hself : nnn.setWidth 16 = s.pc) :
    ∃ t, (transact .step s).1 = t ∧ (transact .step s).2.endsRun = false ∧
      fetched Config.hw t = some (.jp nnn) ∧ t.pc = s.pc ∧ TickedFrom s.dt s.st s t := by
  obtain ⟨-, t, ht, ⟨⟨htick, hpc, hw⟩, -, hitems, -⟩, -⟩ := jumpSetsThePc nnn s
  have hpc' : t.pc = s.pc := hpc.trans hself
  rw [transact_step_next ((step_of_fetched hfetched).trans ht), hw]
  exact ⟨t, rfl, rfl, (fetched_congr hpc' (hitems .memory List.not_mem_nil)).trans hfetched, hpc',
    htick⟩

/-- `n` Steps at a jump to its own address: the ticks add up, and the one that takes the sound timer
from 2 to 1 beeps. -/
theorem hostRun_jumpToSelf {nnn : Addr12} (n : Nat) {s : State}
    (hfetched : fetched Config.hw s = some (.jp nnn)) (hself : nnn.setWidth 16 = s.pc) :
    SafeRun (List.replicate n .step) s ∧
    ∃ t, (hostRun (List.replicate n .step) s).state = t ∧ t.pc = s.pc ∧
      t.dt.toNat = s.dt.toNat - n ∧ t.st.toNat = s.st.toNat - n ∧
      t.beeps = s.beeps + if 2 ≤ s.st.toNat ∧ s.st.toNat ≤ n + 1 then 1 else 0 := by
  induction n generalizing s with
  | zero => exact ⟨rfl, s, rfl, rfl, rfl, rfl, by rw [if_neg (by omega)]; rfl⟩
  | succ n ih =>
    obtain ⟨t, ht, hgoes, hfetched', hpc, hdt, hst, hbeeps⟩ :=
      transact_step_jumpToSelf hfetched hself
    obtain ⟨hsafe, u, hu, hupc, hudt, hust, hubeeps⟩ := ih hfetched' (hself.trans hpc.symm)
    rw [SafeRun, List.replicate_succ, hostRun_goesOn _ hgoes, ht]
    refine ⟨hsafe, u, hu, hupc.trans hpc, by omega, by omega, ?_⟩
    have htwo : s.st = 2 ↔ s.st.toNat = 2 := BitVec.toNat_eq
    rw [hubeeps, hbeeps, hst, Nat.add_assoc]
    simp only [htwo]
    split_ifs <;> omega

/-- Settles O60: a run is taken one transaction at a time; a fatal reply is one that ends it. -/
theorem runsEndAtTheFirstFatalFault : Obligations.RunsEndAtTheFirstFatalFault := by
  refine ⟨fun l s => ⟨hostRun_state l s, fun k a r => hostRun_reply l s, hostRun_of_safe l s,
    fun hfailed => ?_⟩, fun nnn s n => hostRun_jumpToSelf n⟩
  obtain ⟨front, r, h⟩ := hostRun_of_failed l s hfailed
  exact ⟨front, r, h.replies, h.fatal, h.safe, h.state, h.rest⟩

end Sys2Proof.Machine
